-- ==== Sys2Proof/Word.lean ====
section
/-! DEFINITION. The value types of LZ77BP: bytes (R7), stream symbols and their classes (R42), and what a register
access of the host carries (R19). A width that R6 makes a parameter is a field of `Config` and stands in no type
(log entry 5). -/

namespace Sys2Proof

/-- A byte of the window or of the output, 0 to 255 (R7). -/
abbrev Byte := BitVec 8

/-- One symbol of the bitstream (R42): its code, a number below `2^SYMW` in every symbol the host stores. No rule
computes with a symbol, they only classify it. -/
abbrev Symbol := Nat

/-- The class of a stream symbol (R42): the character '0', the character '1', or anything else. -/
inductive SymClass where
  | s0
  | s1
  | sX
  deriving DecidableEq, Repr

/-- What one register access of the host carries: a number, of which each register takes and gives the bits of its own
width (R19). -/
abbrev Word := Nat

end Sys2Proof
end

