-- ==== Sys2Proof/Syntax.lean ====
section
/-! DEFINITION. The three tokens of the machine, one constructor per row of spec/opcode_table.json (R60), and the
class of symbol that selects each (R66). -/

namespace Sys2Proof

/-- A decoded token (R60). No token names a register (R11): the operands are immediates. -/
inductive Instr where
  /-- `LIT` (R62, R100): one immediate byte. -/
  | lit (code : Byte)
  /-- `BREF` (R63, R110): how far back from the end of the window the copy starts, and how many bytes it asks for.
  Their widths are `OB` and `LB`, values of registers, so the operands are numbers and `Instr.wellFormed` bounds them. -/
  | bref (offset length : Nat)
  /-- `NOPX` (R64, R87): no fields. -/
  | nopx
  deriving DecidableEq, Repr

/-- The class of the flag symbol that selects the token (R66). -/
def Instr.flagClass : Instr → SymClass
  | .lit _ => .s0
  | .bref _ _ => .s1
  | .nopx => .sX

end Sys2Proof
end

