-- ==== Sys2Proof/Config.lean ====
section
/-! DEFINITION. What an implementation of LZ77BP fixes (R6): the parameters, all of them arguments of the model, what
an implementation has to respect in choosing them, and the values the spec decides. The spec leaves no result of a
token open, so there is no free value here. -/

namespace Sys2Proof

/-- The parameters of R6. -/
structure Config where
  /-- `OB_MAX`, the largest legal `OB` (R21); the width of `CFG_OB` follows from it. -/
  obMax : Nat
  /-- `LB_MAX`, the largest legal `LB` (R22); the width of `CFG_LB` follows from it. -/
  lbMax : Nat
  /-- `POSW`, the width in bits of `POS`, `STRM_LEN` and `ERR_POS`. -/
  posw : Nat
  /-- `LENW`, the width in bits of `OUT_LEN` and `WIN_LEN`. -/
  lenw : Nat
  /-- `SYMW`, the width in bits of one stream symbol. -/
  symw : Nat
  /-- `cls` (R42). -/
  cls : Symbol → SymClass
  /-- `STRM_CAP`, how many symbols the `STRM` space holds; `2^POSW − 1` unless a platform holds fewer. -/
  strmCap : Nat := 2 ^ posw - 1
  /-- `OUT_CAP`, how many bytes the `OUT` space holds; `none` is the unbounded output of R46. -/
  outCap : Option Nat := none
  /-- `EMPTY_STREAM_IS_ERROR` (R84). -/
  emptyStreamIsError : Bool := true

/-- What R6 asks of the parameters together: every legal `N` fits `STRM_LEN`, and every output length (R138) fits
`OUT_LEN`. -/
def Config.wf (c : Config) : Prop :=
  c.strmCap < 2 ^ c.posw ∧ c.strmCap * max 1 (2 ^ c.lbMax - 1) < 2 ^ c.lenw

/-- The decided classification (R42): 0x30 is '0', 0x31 is '1' (PRESUMED, the spec's G1: ASCII), all else is `SX`. -/
def Config.decidedCls (sym : Symbol) : SymClass :=
  if sym = 0x30 then .s0 else if sym = 0x31 then .s1 else .sX

/-- The decided value of every parameter (R6; DESIGN CHOICE of the spec's D1, D2, D8, D10). -/
def Config.decided : Config where
  obMax := 31
  lbMax := 31
  posw := 32
  lenw := 64
  symw := 8
  cls := Config.decidedCls

/-- The platform of R42 that can only present real bits: 0 is `S0`, 1 is `S1`, and no symbol is `SX`. -/
def Config.realBits : Config :=
  { Config.decided with symw := 1, cls := fun sym => if sym % 2 = 0 then .s0 else .s1 }

end Sys2Proof
end

