-- ==== Sys2Proof/WellFormed.lean ====
section
/-! DEFINITION. Which tokens have an encoding under field widths `ob` and `lb` (R65's ranges; R69: a value that does
not fit is an assembly error). -/

namespace Sys2Proof

/-- `LIT` takes every byte, `NOPX` has no field, and the two fields of `BREF` are `ob` and `lb` symbols wide
(R63, R65). -/
def Instr.wellFormed (ob lb : Nat) : Instr → Bool
  | .lit _ => true
  | .bref offset length => decide (offset < 2 ^ ob) && decide (length < 2 ^ lb)
  | .nopx => true

end Sys2Proof
end

