-- ==== Sys2Proof/Decode.lean ====
section
/-! DEFINITION. From symbols to tokens and back: the bit reader (R81, R82), the token lengths (R61), the decoder,
total on every list of symbols, the encoder, the assembler notation (R69, R70), and the host's numbering of table
words. The classification `cls` and the widths `ob`, `lb` are arguments: they are fixed per call (R10). -/

namespace Sys2Proof

/-- `bit(sym)` (R81): inside a field everything that is not '1' is a 0 bit. -/
def bit (cls : Symbol → SymClass) (sym : Symbol) : Nat :=
  if cls sym = .s1 then 1 else 0

/-- `ReadBits` (R82) on the symbols of a field, the first symbol the most significant bit. -/
def readBits (cls : Symbol → SymClass) (syms : List Symbol) : Nat :=
  syms.foldl (fun v sym => 2 * v + bit cls sym) 0

/-- How many symbols follow the flag (R61); nothing but the class of the flag and the two widths decides it. -/
def bodyLength (ob lb : Nat) : SymClass → Nat
  | .s0 => 8
  | .s1 => ob + lb
  | .sX => 0

/-- The length of a token in symbols (R61). -/
def tokenLength (ob lb : Nat) (k : SymClass) : Nat := 1 + bodyLength ob lb k

/-- Why a list of symbols is no token. The only ones are lists cut short (R68). -/
inductive DecodeError where
  /-- There is no symbol at all. -/
  | noFlag
  /-- A flag of class `S0` with fewer than 8 symbols after it. -/
  | incompleteLiteral
  /-- A flag of class `S1` with fewer than `OB + LB` symbols after it. -/
  | incompleteBackReference
  deriving DecidableEq, Repr

/-- The decoder: the token at the front of a list of symbols, and the symbols after it (R60 to R68). The body's
availability is tested before any field is read, once for the sum of the two fields of `BREF` (R83, R111). -/
def decode (cls : Symbol → SymClass) (ob lb : Nat) : List Symbol → Except DecodeError (Instr × List Symbol)
  | [] => .error .noFlag
  | flag :: body =>
    match cls flag with
    | .s0 =>
      if body.length < 8 then .error .incompleteLiteral
      else .ok (.lit (BitVec.ofNat 8 (readBits cls (body.take 8))), body.drop 8)
    | .s1 =>
      if body.length < ob + lb then .error .incompleteBackReference
      else .ok (.bref (readBits cls (body.take ob)) (readBits cls ((body.drop ob).take lb)), body.drop (ob + lb))
    | .sX => .ok (.nopx, body)

/-- The character '0' in the decided physical form (R42). -/
def zeroSymbol : Symbol := 0x30

/-- The character '1' in the decided physical form (R42). -/
def oneSymbol : Symbol := 0x31

/-- The character 'x', which the spec's vectors use for a symbol of class `SX` (R69). -/
def xSymbol : Symbol := 0x78

/-- `n` symbols for the value `v`, most significant first (R62, R63); bits of `v` from `n` up have no symbol. -/
def encodeField (v : Nat) : Nat → List Symbol
  | 0 => []
  | n + 1 => (if v.testBit n then oneSymbol else zeroSymbol) :: encodeField v n

/-- The encoder, from the tables of R62, R63 and R64 and the notation of R69. -/
def encode (ob lb : Nat) : Instr → List Symbol
  | .lit code => zeroSymbol :: encodeField code.toNat 8
  | .bref offset length => oneSymbol :: (encodeField offset ob ++ encodeField length lb)
  | .nopx => [xSymbol]

/-- An assembly program (R69): the tokens' encodings with no separators (R71); `none` is an assembly error. -/
def assemble (ob lb : Nat) : List Instr → Option (List Symbol)
  | [] => some []
  | i :: rest =>
    if i.wellFormed ob lb then (assemble ob lb rest).map (encode ob lb i ++ ·) else none

/-- The pseudo-instruction `STR` (R70): one `LIT` per character. -/
def strTokens (text : List Byte) : List Instr := text.map Instr.lit

/-- One line of the assembler notation (R69, R70): a token, `STR`, or `RAW` with its symbols. The header line of the
notation is the two widths, which `assembleLines` takes as arguments. -/
inductive AsmLine where
  | token (i : Instr)
  | str (text : List Byte)
  | raw (syms : List Symbol)
  deriving DecidableEq, Repr

/-- What one line encodes as (R69, R70); `RAW` is its symbols verbatim. -/
def assembleLine (ob lb : Nat) : AsmLine → Option (List Symbol)
  | .token i => assemble ob lb [i]
  | .str text => assemble ob lb (strTokens text)
  | .raw syms => some syms

/-- A whole text of the notation: the lines' symbols one after another. -/
def assembleLines (ob lb : Nat) : List AsmLine → Option (List Symbol)
  | [] => some []
  | line :: rest =>
    match assembleLine ob lb line, assembleLines ob lb rest with
    | some syms, some more => some (syms ++ more)
    | _, _ => none

/-- The longest token there is at the decided maxima, `1 + OB_MAX + LB_MAX` symbols (R61). -/
def longestToken : Nat := tokenLength Config.decided.obMax Config.decided.lbMax .s1

/-- `OB` of the instance of `BREF` that spec/opcode_table.json shows. -/
def tableOb : Nat := 9

/-- `LB` of the instance of `BREF` that spec/opcode_table.json shows. -/
def tableLb : Nat := 3

/-- The symbols of a number, 8 bits each, the first symbol in the low 8 bits (log entry 16). -/
def symbolsOfNat : Nat → Nat → List Symbol
  | 0, _ => []
  | k + 1, w => w % 256 :: symbolsOfNat k (w / 256)

/-- The symbols of a pattern of the table, one bit for each place, the leftmost place the most significant: the pattern
of `BREF` has 13 places and starts with a 1, that of `LIT` has 9 (log entry 16). -/
def patternSymbols (w : Nat) : List Symbol :=
  if w.testBit (bodyLength tableOb tableLb .s1) then encodeField w (tokenLength tableOb tableLb .s1)
  else encodeField w (tokenLength tableOb tableLb .s0)

/-- The symbols of an instruction given as a number of `nbits` bits: a pattern of the table where two bytes hold it,
else whole symbol codes. The symbols behind it, up to the longest token, have the code 0 (log entry 16). -/
def tableSymbols (nbits w : Nat) : List Symbol :=
  if 8 < nbits ∧ nbits ≤ 16 then
    patternSymbols w ++ List.replicate (longestToken - (patternSymbols w).length) 0
  else symbolsOfNat longestToken (w % 2 ^ nbits)

/-- What the decoder reads from an instruction given as a number (log entry 16 says how its bits are numbered), under
the widths of the table's instance. -/
def decodeTableWord (nbits w : Nat) : Option Instr :=
  match decode Config.decided.cls tableOb tableLb (tableSymbols nbits w) with
  | .ok (i, _) => some i
  | .error _ => none

end Sys2Proof
end

