-- ==== Sys2Proof/Machine/State.lean ====
section
/-! DEFINITION. The state of LZ77BP as plain data: what the core changes (R10, R13 to R18), what the host configures
and loads (R19 to R23, R41), and the host's own side of the interface (R140; log entry 15). -/

namespace Sys2Proof.Machine

/-- Where the block stands between calls (R18, R26). -/
inductive Phase where
  | idle
  | busy
  | done
  deriving DecidableEq, Repr

/-- How a call ended (R18, R26): `eos` is the source's `UnexpectedEndOfStream`, `incLit` its `IncompleteLiteral`,
`incBref` its `IncompleteBackReference`. -/
inductive Result where
  | ok
  | eos
  | incLit
  | incBref
  deriving DecidableEq, Repr

/-- The nine registers of R19, in the order of their numbers. -/
inductive Reg where
  | ctrl
  | status
  | cfgOb
  | cfgLb
  | strmLen
  | pos
  | errPos
  | outLen
  | winLen
  deriving DecidableEq, Repr

/-- The number of a register (R19). -/
def Reg.number : Reg → Nat
  | .ctrl => 0
  | .status => 1
  | .cfgOb => 2
  | .cfgLb => 3
  | .strmLen => 4
  | .pos => 5
  | .errPos => 6
  | .outLen => 7
  | .winLen => 8

/-- One step of the host (R140). `pass` is the host leaving the step to the core; `hardReset` is the platform's reset
(R190); `readResult` and `readOutput` are the two parts of `READ_RESULT` (R146), in which what was read decides what is
read next; the rest are single accesses to the registers and spaces of R19 and R40. -/
inductive HostOp where
  | pass
  | hardReset
  | readReg (r : Reg)
  | writeReg (r : Reg) (w : Word)
  | readStrm (a : Nat)
  | writeStrm (a : Nat) (sym : Symbol)
  | readOut (a : Nat)
  | readResult
  | readOutput
  deriving DecidableEq, Repr

/-- What a read of the host returned (R146). -/
inductive HostReply where
  | reg (r : Reg) (w : Word)
  | strm (a : Nat) (sym : Symbol)
  | out (a : Nat) (b : Byte)
  deriving DecidableEq, Repr

/-- The `STRM` space: pairs of index and symbol, in the canonical form `Memory.wf`; an index not listed has no value
(log entry 14). A symbol has `SYMW` bits, so a cell holds its code and not a byte (log entry 5). -/
abbrev Memory := List (Nat × Symbol)

/-- The canonical form: indices strictly rising. An unlisted index has no value, so no listed entry can equal it. -/
abbrev Memory.wf (m : Memory) : Prop := m.Pairwise (fun c d => c.1 < d.1)

/-- The whole state. The working registers of R12 are local values of a token's step. Registers whose width is a
parameter of R6 are numbers here; the accesses of the host narrow them (`Reg.width`, log entry 5). -/
structure State where
  /-- R18, R26. -/
  phase : Phase
  /-- R18: written once per call, when the call ends. -/
  result : Result
  /-- The cursor, the machine's program counter (R13, R24). -/
  pos : Nat
  /-- The cursor value an error carries (R18, R25). -/
  errPos : Nat
  /-- The output (R17); `out_len` is its length (R27). -/
  out : List Byte
  /-- The window (R14), oldest byte first; `WIN_LEN` is its length (R28). -/
  win : List Byte
  /-- `CFG_OB` (R21). -/
  cfgOb : Nat
  /-- `CFG_LB` (R22). -/
  cfgLb : Nat
  /-- `STRM_LEN` (R23). -/
  strmLen : Nat
  /-- The bitstream (R41). -/
  strm : Memory
  /-- The MODEL's own: the host's pending operations, the next one first (log entry 15). -/
  hostQueue : List HostOp
  /-- The MODEL's own: what the host's reads have returned, the latest last (log entry 15). -/
  hostSeen : List HostReply
  deriving DecidableEq, Repr

/-- `OB` as a number (R5). -/
def State.ob (s : State) : Nat := s.cfgOb

/-- `LB` as a number (R5). -/
def State.lb (s : State) : Nat := s.cfgLb

/-- `N`, the number of symbols of the stream (R23). -/
def State.n (s : State) : Nat := s.strmLen

/-- `W = 2^OB`, the window size in bytes (R5). -/
def State.window (s : State) : Nat := 2 ^ s.ob

/-- Why the machine stops with a fault. -/
inductive Fault where
  /-- The core's fetch met a `STRM` index below `N` that nothing has loaded since reset. The spec leaves the symbol
  unspecified (R29, U6) and obliges the host to load it (R192). SAFE: the hardware reads some symbol and goes on
  (log entry 14). -/
  | unloadedSymbol
  deriving DecidableEq, Repr

/-- Steps to which the machine gives no meaning. All but the first are raised by host operations or by a finite
`OUT_CAP`, never by a token. All are SAFE: no claim can be proved about what follows. -/
inductive Refusal where
  /-- `exec`, for an instruction with no meaning yet. -/
  | notModelled (mnemonic : String)
  /-- A host access other than reading `STATUS` or writing `CTRL` while `BUSY` = 1 (R142, R208, U5). -/
  | hostAccessWhileBusy
  /-- A host write to a register that R19 makes read only (log entry 17). -/
  | writeToReadOnlyRegister
  /-- `OB > OB_MAX`, `LB > LB_MAX` or `N > STRM_CAP`, written or started with (R21, R22, R151, U2). -/
  | configOutOfRange
  /-- `READ_RESULT`, which R146 allows in phase `DONE`, before the first call has ended (log entry 17). -/
  | noResultYet
  /-- A host access to a `STRM` index that does not exist (R40, `STRM_CAP` of R6). -/
  | strmIndexOutOfRange
  /-- A host read of a `STRM` symbol at or past `STRM_LEN`, or never loaded: any value (U6, log entry 17). -/
  | strmSymbolUnspecified
  /-- A host read of an `OUT` byte at or past `OUT_LEN`: any value, must not be read as output (R44, U6). -/
  | outByteUnspecified
  /-- A token's output would pass a finite `OUT_CAP` (R46, U9). Unreachable at the decided, unbounded output. -/
  | outCapExceeded
  deriving DecidableEq, Repr

/-- The machine right after hardware reset (R29, R190): every register 0, `IDLE`, both sequences empty, no symbol
listed (the contents of the spaces are unspecified, log entry 14), no host operation pending (log entry 15). -/
def State.reset : State where
  phase := .idle
  result := .ok
  pos := 0
  errPos := 0
  out := []
  win := []
  cfgOb := 0
  cfgLb := 0
  strmLen := 0
  strm := []
  hostQueue := []
  hostSeen := []

end Sys2Proof.Machine
end

