-- ==== Sys2Proof/Machine/Ops.lean ====
section
/-! DEFINITION. The operations the tokens, the sequencer and the host share: reading and writing the `STRM` space,
`Append` and `Trim` (R130, R131), the flag's cursor advance (R85), error entry (R165), the normal end of a call (R86),
call initialisation (R191) and hardware reset (R190). -/

namespace Sys2Proof.Machine

/-- The symbol at an index (R41); `none` where nothing has been loaded (log entry 14). -/
def Memory.read : Memory → Nat → Option Symbol
  | [], _ => none
  | c :: rest, a => if c.1 = a then some c.2 else Memory.read rest a

/-- Store one symbol, keeping the indices strictly rising. -/
def Memory.write : Memory → Nat → Symbol → Memory
  | [], a, v => [(a, v)]
  | c :: rest, a, v =>
    if a < c.1 then (a, v) :: c :: rest
    else if a = c.1 then (a, v) :: rest
    else c :: Memory.write rest a v

/-- The `k` symbols from index `a` on; `none` if one of them has not been loaded. -/
def Memory.readRun (m : Memory) (a : Nat) : Nat → Option (List Symbol)
  | 0 => some []
  | k + 1 =>
    match Memory.read m a, Memory.readRun m (a + 1) k with
    | some v, some vs => some (v :: vs)
    | _, _ => none

/-- Store symbols one after another from index `a` on. -/
def Memory.writeRun (m : Memory) (a : Nat) : List Symbol → Memory
  | [] => m
  | v :: vs => Memory.writeRun (Memory.write m a v) (a + 1) vs

/-- `Append(b)` (R130): to `out` and to `win`, always together. -/
def append (b : Byte) (s : State) : State :=
  { s with out := s.out ++ [b], win := s.win ++ [b] }

/-- The loop of `Trim` (R131): drop the oldest byte while more than `w` are held. -/
def dropWhileLonger (w : Nat) : List Byte → List Byte
  | [] => []
  | b :: rest => if w < (b :: rest).length then dropWhileLonger w rest else b :: rest

/-- `Trim()` (R131). -/
def trim (s : State) : State := { s with win := dropWhileLonger s.window s.win }

/-- The last `w` bytes of a sequence, all of it if it is shorter. -/
def keepNewest (w : Nat) (l : List Byte) : List Byte := l.drop (l.length - w)

/-- The flag of a token is consumed before its body is looked at (R85). -/
def takeFlag (s : State) : State := { s with pos := s.pos + 1 }

/-- The cursor moves past a field or a body of `k` symbols (R82). -/
def advance (k : Nat) (s : State) : State := { s with pos := s.pos + k }

/-- Error entry (R165): `raise e(p)`. The cursor, the output and the window stay exactly as they are. -/
def raiseError (e : Result) (p : Nat) (s : State) : State :=
  { s with result := e, errPos := p, phase := .done }

/-- `raise IncompleteLiteral(pos)`, the cursor past the flag (R101, R162; log entry 3). -/
def raiseIncompleteLiteral (s : State) : State := raiseError .incLit s.pos s

/-- `raise IncompleteBackReference(pos)`, the cursor past the flag (R111, R163; log entry 3). -/
def raiseIncompleteBackReference (s : State) : State := raiseError .incBref s.pos s

/-- `raise UnexpectedEndOfStream(pos)` (R84, R161). -/
def raiseUnexpectedEndOfStream (s : State) : State := raiseError .eos s.pos s

/-- `halt OK` (R86): `err_pos`, `out` and `pos` stay as they are. -/
def haltOk (s : State) : State := { s with result := .ok, phase := .done }

/-- Step 6 (R86): a token that completed without error with the cursor at the end ends the call. -/
def endOfStreamTest (s : State) : State :=
  if s.phase = .busy ∧ s.n ≤ s.pos then haltOk s else s

/-- An accepted `START` (R144, R191). -/
def startCall (s : State) : State :=
  { s with pos := 0, win := [], out := [], result := .ok, errPos := 0, phase := .busy }

/-- Hardware reset at any time (R190, U14): the block as after any reset, the call abandoned, the contents of the
spaces unspecified, so nothing is listed (log entry 18). The host's own lists are not the block's. -/
def hardReset (s : State) : State :=
  { State.reset with hostQueue := s.hostQueue, hostSeen := s.hostSeen }

/-- The host receives what it read (R146); nothing else changes. -/
def reply (r : HostReply) (s : State) : State := { s with hostSeen := s.hostSeen ++ [r] }

/-- The block as a load of `syms` from index 0, widths `ob` and `lb`, and a start leave it for the fetch: exactly what
`State.withFetchWord` has to set (log entry 16). -/
def placeProgram (ob lb : Nat) (syms : List Symbol) (s : State) : State :=
  { s with
    phase := .busy
    pos := 0
    cfgOb := ob
    cfgLb := lb
    strmLen := syms.length
    strm := Memory.writeRun s.strm 0 syms
    hostQueue := [] }

end Sys2Proof.Machine
end

