-- ==== Sys2Proof/Machine/Operands.lean ====
section
/-! DEFINITION. Where a token's operands come from: the availability test (R83), the symbols of the token at the
cursor (R61, R85), and the source of a back-reference in the window (R113 to R116). -/

namespace Sys2Proof.Machine

/-- The availability test of R83 for `k` symbols at the cursor; natural numbers, so it cannot wrap (R9, R209). -/
def fits (k : Nat) (s : State) : Bool := decide (¬ s.pos + k > s.n)

/-- The symbols the parser reads for the token at the cursor: the flag, and the body if it fits (R83, R85). A body
that does not fit is not read at all (R101, R111, R166). `none` if one of them has never been loaded
(log entry 14). -/
def tokenSymbols (cls : Symbol → SymClass) (s : State) : Option (List Symbol) :=
  match Memory.read s.strm s.pos with
  | none => none
  | some flag =>
    if fits (tokenLength s.ob s.lb (cls flag)) s then
      Memory.readRun s.strm s.pos (tokenLength s.ob s.lb (cls flag))
    else some [flag]

/-- The validity check of R114, `L0 = |win|` measured before any byte of the token is appended (R113). -/
def brefValid (offset length : Nat) (s : State) : Bool :=
  !(decide (offset > s.win.length) || decide (length = 0))

/-- `startPos = L0 − offset` (R115), evaluated only after the validity check (R9). -/
def copyStart (offset : Nat) (s : State) : Nat := s.win.length - offset

/-- The copy loop (R116): `k` iterations are left and `src` is the next source index. The index is tested against the
window as it is now, the byte is read and appended, and the next iteration sees it (R117, R205). No trim between
iterations (R118, R206). -/
def copyLoop (src : Nat) : Nat → State → State
  | 0, s => s
  | k + 1, s =>
    match s.win[src]? with
    | none => s
    | some b => copyLoop (src + 1) k (append b s)

end Sys2Proof.Machine
end

