-- ==== Sys2Proof/Machine/BackReference.lean ====
section
/-! DEFINITION. The meaning of `BREF` (R110 to R119). -/

namespace Sys2Proof.Machine

/-- The copy of a valid token, nothing for a token that the validity check skips (R114 to R116). -/
def copyBytes (offset length : Nat) (s : State) : State :=
  if brefValid offset length s then copyLoop (copyStart offset s) length s else s

/-- `BREF` (R110): the flag is consumed (R85), the two fields must fit together (R111) and are both consumed (R112),
the copy, the trim after the last iteration (R118). -/
def execBref (offset length : Nat) (s : State) : Host.Outcome State Fault Refusal :=
  if fits (s.ob + s.lb) (takeFlag s) then
    .next (trim (copyBytes offset length (advance (s.ob + s.lb) (takeFlag s))))
  else .next (raiseIncompleteBackReference (takeFlag s))

end Sys2Proof.Machine
end

