-- ==== Sys2Proof/Machine/Flags.lean ====
section
/-! DEFINITION. Status and the register views. The machine has no condition codes (R18): its status is `phase`,
`result` and `err_pos`, which the host reads through the registers of R19. Also the printable filter's test (R102),
the one condition a token computes on a byte. -/

namespace Sys2Proof.Machine

/-- The printable filter (R102); both bounds are inclusive. -/
def printable (b : Byte) : Bool := decide (32 ≤ b.toNat) && decide (b.toNat ≤ 126)

/-- The `RESULT` code of a result (R26, R160; DESIGN CHOICE of the spec's D4). 4 to 7 are never produced (U8). -/
def resultCode : Result → Nat
  | .ok => 0
  | .eos => 1
  | .incLit => 2
  | .incBref => 3

/-- `STATUS` (R26): `[0] BUSY`, `[1] DONE`, `[4:2] RESULT`, which reads 0 unless `DONE` = 1. -/
def statusWord (s : State) : Word :=
  match s.phase with
  | .idle => 0
  | .busy => 1
  | .done => 2 + 4 * resultCode s.result

/-- The field `RESULT` of a `STATUS` value (R26). -/
def resultField (w : Word) : Nat := w / 4 % 8

/-- The width of a register that has to hold 0 to `m`: `ceil(log2(m + 1))` bits (R6). -/
def fieldWidth (m : Nat) : Nat := if m = 0 then 0 else Nat.log2 m + 1

/-- The width of a register in bits (R19, R6). -/
def Reg.width (c : Config) : Reg → Nat
  | .ctrl => 1
  | .status => 5
  | .cfgOb => fieldWidth c.obMax
  | .cfgLb => fieldWidth c.lbMax
  | .strmLen | .pos | .errPos => c.posw
  | .outLen | .winLen => c.lenw

/-- The bits of a number that a register takes or gives; the others are ignored or read 0 (R19). -/
def narrow (c : Config) (r : Reg) (w : Nat) : Word := w % 2 ^ r.width c

/-- The number behind a register (R20 to R28); `CTRL` reads 0 (R20). -/
def regValue (r : Reg) (s : State) : Nat :=
  match r with
  | .ctrl => 0
  | .status => statusWord s
  | .cfgOb => s.cfgOb
  | .cfgLb => s.cfgLb
  | .strmLen => s.strmLen
  | .pos => s.pos
  | .errPos => s.errPos
  | .outLen => s.out.length
  | .winLen => s.win.length

/-- What a read of a register returns (R19). -/
def regRead (c : Config) (r : Reg) (s : State) : Word := narrow c r (regValue r s)

/-- The optional level output `done` (R152), high while `phase` = `DONE`. -/
def doneLine (s : State) : Bool := decide (s.phase = .done)

end Sys2Proof.Machine
end

