-- ==== Sys2Proof/Machine/Literal.lean ====
section
/-! DEFINITION. The meaning of `LIT` (R100 to R104). -/

namespace Sys2Proof.Machine

/-- Append a byte if it is printable, drop it silently otherwise (R102). -/
def appendPrintable (code : Byte) (s : State) : State :=
  if printable code then append code s else s

/-- `LIT` (R100): the flag is consumed (R85), the body must fit (R101), the filter (R102), the trim (R103). -/
def execLit (code : Byte) (s : State) : Host.Outcome State Fault Refusal :=
  if fits 8 (takeFlag s) then
    .next (trim (appendPrintable code (advance 8 (takeFlag s))))
  else .next (raiseIncompleteLiteral (takeFlag s))

end Sys2Proof.Machine
end

