-- ==== Sys2Proof/Machine/NoOp.lean ====
section
/-! DEFINITION. The meaning of `NOPX` (R64, R87). -/

namespace Sys2Proof.Machine

/-- `NOPX` (R87): the flag is consumed (R85) and nothing else happens; no trim (R87). -/
def execNopx (s : State) : Host.Outcome State Fault Refusal := .next (takeFlag s)

end Sys2Proof.Machine
end

