-- ==== Sys2Proof/Machine/Dispatch.lean ====
section
/-! DEFINITION. The opcode map (R66): one arm per token, one direct call of its meaning. -/

namespace Sys2Proof.Machine

def exec (i : Instr) (s : State) : Host.Outcome State Fault Refusal :=
  match i with
  | .lit code => Sys2Proof.Machine.execLit code s
  | .bref offset length => Sys2Proof.Machine.execBref offset length s
  | .nopx => Sys2Proof.Machine.execNopx s

end Sys2Proof.Machine
end

