-- ==== Sys2Proof/Machine/HostOps.lean ====
section
/-! DEFINITION. What one step of the host does (R140 to R146), by phase (R142), and the host operations of
44_host_operations.md as sequences of such steps. -/

namespace Sys2Proof.Machine

/-- The values a call may be started with (R151): `OB ≤ OB_MAX`, `LB ≤ LB_MAX`, `N ≤ STRM_CAP`. -/
def configInRange (c : Config) (s : State) : Bool :=
  decide (s.ob ≤ c.obMax) && decide (s.lb ≤ c.lbMax) && decide (s.n ≤ c.strmCap)

/-- A step that R142 gives no meaning while a call runs. -/
def unlessBusy (s : State) (t : Host.Outcome State Fault Refusal) : Host.Outcome State Fault Refusal :=
  if s.phase = .busy then .refused .hostAccessWhileBusy else t

/-- A host read of a register (R19, R142): `STATUS` at any time, the others only when not busy; no side effect
(R146). -/
def hostReadReg (c : Config) (r : Reg) (s : State) : Host.Outcome State Fault Refusal :=
  if r = .status then .next (reply (.reg r (regRead c r s)) s)
  else unlessBusy s (.next (reply (.reg r (regRead c r s)) s))

/-- A write of `CTRL` (R20, R144): 1 in bit 0 starts a call in `IDLE` or `DONE`, and has no effect in `BUSY`; 0 has
no effect. -/
def writeCtrl (c : Config) (w : Word) (s : State) : Host.Outcome State Fault Refusal :=
  if narrow c .ctrl w = 1 ∧ s.phase ≠ .busy then
    if configInRange c s then .next (startCall s) else .refused .configOutOfRange
  else .next s

/-- A write of `CFG_OB` (R21): the bits of its width; a value above `OB_MAX` is refused. -/
def writeCfgOb (c : Config) (w : Word) (s : State) : Host.Outcome State Fault Refusal :=
  unlessBusy s
    (if narrow c .cfgOb w ≤ c.obMax then .next { s with cfgOb := narrow c .cfgOb w } else .refused .configOutOfRange)

/-- A write of `CFG_LB` (R22). -/
def writeCfgLb (c : Config) (w : Word) (s : State) : Host.Outcome State Fault Refusal :=
  unlessBusy s
    (if narrow c .cfgLb w ≤ c.lbMax then .next { s with cfgLb := narrow c .cfgLb w } else .refused .configOutOfRange)

/-- A write of `STRM_LEN` (R23). -/
def writeStrmLen (c : Config) (w : Word) (s : State) : Host.Outcome State Fault Refusal :=
  unlessBusy s
    (if narrow c .strmLen w ≤ c.strmCap then .next { s with strmLen := narrow c .strmLen w }
      else .refused .configOutOfRange)

/-- A host write of a register (R19). A read-only register has no write (log entry 17). -/
def hostWriteReg (c : Config) (r : Reg) (w : Word) (s : State) : Host.Outcome State Fault Refusal :=
  match r with
  | .ctrl => writeCtrl c w s
  | .cfgOb => writeCfgOb c w s
  | .cfgLb => writeCfgLb c w s
  | .strmLen => writeStrmLen c w s
  | .status | .pos | .errPos | .outLen | .winLen => unlessBusy s (.refused .writeToReadOnlyRegister)

/-- A host write of one symbol (R143): any symbol of `SYMW` bits at any index of the space, in any order (R151). -/
def hostWriteStrm (c : Config) (a : Nat) (sym : Symbol) (s : State) : Host.Outcome State Fault Refusal :=
  unlessBusy s
    (if a < c.strmCap then .next { s with strm := Memory.write s.strm a (sym % 2 ^ c.symw) }
      else .refused .strmIndexOutOfRange)

/-- A host read of one symbol (R40, R45): below `STRM_LEN` and loaded, else any value (U6, log entry 17). -/
def hostReadStrm (c : Config) (a : Nat) (s : State) : Host.Outcome State Fault Refusal :=
  unlessBusy s
    (if c.strmCap ≤ a then .refused .strmIndexOutOfRange
     else if s.n ≤ a then .refused .strmSymbolUnspecified
     else
      match Memory.read s.strm a with
      | some sym => .next (reply (.strm a sym) s)
      | none => .refused .strmSymbolUnspecified)

/-- A host read of one output byte (R44, R146): below `OUT_LEN` only. -/
def hostReadOut (a : Nat) (s : State) : Host.Outcome State Fault Refusal :=
  unlessBusy s
    (match s.out[a]? with
     | some b => .next (reply (.out a b) s)
     | none => .refused .outByteUnspecified)

/-- A step of `READ_RESULT`, which R146 allows in phase `DONE` only. -/
def onlyWhenDone (s : State) (t : Host.Outcome State Fault Refusal) : Host.Outcome State Fault Refusal :=
  match s.phase with
  | .done => t
  | .busy => .refused .hostAccessWhileBusy
  | .idle => .refused .noResultYet

/-- The host receives what it read and, because of it, has more to do before anything else. -/
def replyThen (r : HostReply) (more : List HostOp) (s : State) : State :=
  reply r { s with hostQueue := more ++ s.hostQueue }

/-- What `READ_RESULT` reads after `STATUS` (R146): `ERR_POS` only where the `RESULT` it has read is not `OK`, and then
the output. -/
def afterStatus (w : Word) : List HostOp :=
  (if resultField w = resultCode .ok then [] else [.readReg .errPos]) ++ [.readOutput]

/-- What `READ_RESULT` reads after `OUT_LEN` (R146): as many bytes as the value it has read says. -/
def afterOutLen (w : Word) : List HostOp := (List.range w).map HostOp.readOut

/-- `READ_RESULT` (R146), its first read: `STATUS`. -/
def hostReadResult (c : Config) (s : State) : Host.Outcome State Fault Refusal :=
  onlyWhenDone s
    (.next (replyThen (.reg .status (regRead c .status s)) (afterStatus (regRead c .status s)) s))

/-- `READ_RESULT` (R146), its read of `OUT_LEN`. -/
def hostReadOutput (c : Config) (s : State) : Host.Outcome State Fault Refusal :=
  onlyWhenDone s
    (.next (replyThen (.reg .outLen (regRead c .outLen s)) (afterOutLen (regRead c .outLen s)) s))

/-- One step of the host. -/
def hostStep (c : Config) (op : HostOp) (s : State) : Host.Outcome State Fault Refusal :=
  match op with
  | .pass => .next s
  | .hardReset => .next (hardReset s)
  | .readReg r => hostReadReg c r s
  | .writeReg r w => hostWriteReg c r w s
  | .readStrm a => hostReadStrm c a s
  | .writeStrm a sym => hostWriteStrm c a sym s
  | .readOut a => hostReadOut a s
  | .readResult => hostReadResult c s
  | .readOutput => hostReadOutput c s

/-- `CONFIGURE` (R141). -/
def configureOps (ob lb : Word) : List HostOp := [.writeReg .cfgOb ob, .writeReg .cfgLb lb]

/-- The symbol writes of `LOAD` from index `a` on. -/
def loadOpsFrom : Nat → List Symbol → List HostOp
  | _, [] => []
  | a, sym :: rest => .writeStrm a sym :: loadOpsFrom (a + 1) rest

/-- `LOAD` (R143). -/
def loadOps (syms : List Symbol) : List HostOp :=
  loadOpsFrom 0 syms ++ [.writeReg .strmLen syms.length]

/-- `START` (R144). -/
def startOps : List HostOp := [.writeReg .ctrl 1]

/-- `READ_RESULT` (R146). -/
def readResultOps : List HostOp := [.readResult]

end Sys2Proof.Machine
end

