-- ==== Sys2Proof/Machine/Sequencer.lean ====
section
/-! DEFINITION. The token sequencer (R84 to R90) and the alternation of host and core (R140), for every value of the
implementation's parameters (R6). -/

namespace Sys2Proof.Machine

/-- Whether a state's output passes a finite `OUT_CAP` (R46). -/
def exceedsOutCap (c : Config) (s : State) : Bool :=
  match c.outCap with
  | none => false
  | some cap => decide (cap < s.out.length)

/-- What follows a token: a call whose output would pass a finite `OUT_CAP` is refused (R46, U9), and the end of the
stream ends the call (R86). -/
def finishToken (c : Config) (t : Host.Outcome State Fault Refusal) : Host.Outcome State Fault Refusal :=
  match t with
  | .next s => if exceedsOutCap c s then .refused .outCapExceeded else .next (endOfStreamTest s)
  | .fault r => .fault r
  | .refused r => .refused r

/-- Step 1 (R84) with no room for a flag: an error, or, under the other value of the parameter, a clean end
(log entry 2). -/
def noRoomForFlag (c : Config) (s : State) : State :=
  if c.emptyStreamIsError then raiseUnexpectedEndOfStream s else haltOk s

/-- Run what the decoder gave (R85). A token cut short consumes its flag and raises its error (R101, R111). -/
def runDecoded (c : Config) (d : Except DecodeError (Instr × List Symbol)) (s : State) :
    Host.Outcome State Fault Refusal :=
  match d with
  | .ok (i, _) => finishToken c (exec i s)
  | .error .noFlag => .next (noRoomForFlag c s)
  | .error .incompleteLiteral => .next (raiseIncompleteLiteral (takeFlag s))
  | .error .incompleteBackReference => .next (raiseIncompleteBackReference (takeFlag s))

/-- One step of the core (R90): one pass of the loop of R89 from a token boundary. -/
def coreStep (c : Config) (s : State) : Host.Outcome State Fault Refusal :=
  if fits 1 s then
    match tokenSymbols c.cls s with
    | none => .fault .unloadedSymbol
    | some syms => runDecoded c (decode c.cls s.ob s.lb syms) s
  else .next (noRoomForFlag c s)

/-- The core moves if a call is running; otherwise nothing happens (R140). -/
def coreTurn (c : Config) (s : State) : Host.Outcome State Fault Refusal :=
  if s.phase = .busy then coreStep c s else .next s

/-- One step of the machine and its host: the host's next pending operation, or the core where the host passes or has
none (log entry 15). -/
def stepIn (c : Config) (s : State) : Host.Outcome State Fault Refusal :=
  match s.hostQueue with
  | [] => coreTurn c s
  | .pass :: rest => coreTurn c { s with hostQueue := rest }
  | op :: rest => hostStep c op { s with hostQueue := rest }

end Sys2Proof.Machine
end

