-- ==== Sys2Proof/Machine/Step.lean ====
section
/-! DEFINITION. The step of the machine at the decided parameters, and how the host of this package places one
instruction where the next step fetches it. -/

namespace Sys2Proof.Machine

/-- One step, at the parameters the spec decides (R6). -/
def step (s : State) : Host.Outcome State Fault Refusal := stepIn Config.decided s

/-- The block with the instruction given by the number `w` as the token at symbol 0 of a running call, under the
widths of the table's instance of `BREF`; what the fetch does not need is unchanged (log entry 16). -/
def State.withFetchWord (s : State) (nbits w : Nat) : State :=
  placeProgram tableOb tableLb (tableSymbols nbits w) s

end Sys2Proof.Machine
end

