-- ==== Sys2Proof/Machine/Ring.lean ====
section
/-! DEFINITION. The ring-buffer realisation of the window that the spec permits (R133): a second, equivalent machine
for the window's part of a token, to be proved against the logical sequence. The architectural state is the sequence
(log entry 10); nothing in `step` uses this file. -/

namespace Sys2Proof.Machine

/-- A ring of `cells.length` bytes, the next slot to write, and how many bytes it holds (R133). -/
structure Ring where
  cells : List Byte
  wr : Nat
  cnt : Nat
  deriving DecidableEq, Repr

/-- An empty ring of `w` bytes; what the cells hold is never read. -/
def Ring.empty (w : Nat) : Ring := ⟨List.replicate w 0, 0, 0⟩

/-- The window half of `Append` on a ring (R133). -/
def ringAppend (b : Byte) (r : Ring) : Ring :=
  ⟨r.cells.set r.wr b, (r.wr + 1) % r.cells.length, min (r.cnt + 1) r.cells.length⟩

/-- The byte `d` positions back, `1 ≤ d ≤ cnt` (R133). -/
def ringBack (d : Nat) (r : Ring) : Option Byte := r.cells[(r.wr + (r.cells.length - d)) % r.cells.length]?

/-- `k` iterations of the copy, each reading at distance `offset` from the current end (R132), with the bytes they
emit appended to an output. -/
def ringCopy (offset : Nat) : Nat → Ring × List Byte → Ring × List Byte
  | 0, p => p
  | k + 1, (r, o) =>
    match ringBack offset r with
    | none => (r, o)
    | some b => ringCopy offset k (ringAppend b r, o ++ [b])

/-- What a complete token does to a ring and an output: `Trim` is nothing, and the validity check uses `cnt` as it
stands before the first append (R133). A copy at distance 0 emits nothing (R119). -/
def ringToken (i : Instr) (p : Ring × List Byte) : Ring × List Byte :=
  match i with
  | .lit code => if printable code then (ringAppend code p.1, p.2 ++ [code]) else p
  | .bref offset length =>
    if offset > p.1.cnt ∨ length = 0 ∨ offset = 0 then p else ringCopy offset length p
  | .nopx => p

/-- A ring holds a window: as many bytes, and the same byte at every distance back (R133). -/
def Ring.Realises (w : Nat) (r : Ring) (win : List Byte) : Prop :=
  r.cells.length = w ∧ r.wr < w ∧ r.cnt = win.length ∧ win.length ≤ w ∧
    ∀ d, 1 ≤ d → d ≤ win.length → ringBack d r = win[win.length - d]?

end Sys2Proof.Machine
end

