-- ==== Sys2Proof/Safety.lean ====
section
/-! DEFINITION. The terms in which claims about the machine are made: the invariant of every step, what a host has to
have loaded, whole calls (R89), and the window-free reading of a back-reference (R121). -/

namespace Sys2Proof.Machine

/-- Every byte is 32 to 126 (R17, R137). -/
abbrev AllPrintable (l : List Byte) : Prop := ∀ b ∈ l, printable b = true

/-- How many bytes one token can append at width `lb` (R122, R138). -/
def tokenOutputBound (lb : Nat) : Nat := max 1 (2 ^ lb - 1)

/-- What holds of a call that runs, at a token boundary: the cursor (R13, R90), nothing recorded yet (R25, R26), the
window mirrors the output's newest bytes (R15, R136), and the output bound (R138). -/
structure BusyInv (s : State) : Prop where
  cursor : s.pos < s.n ∨ (s.pos = 0 ∧ s.n = 0)
  result_ok : s.result = .ok
  errPos_zero : s.errPos = 0
  mirror : s.win = keepNewest s.window s.out
  bounded : s.out.length ≤ s.pos * tokenOutputBound s.lb

/-- What holds before the first call after a reset (R29, R190). -/
structure IdleInv (s : State) : Prop where
  pos_zero : s.pos = 0
  result_ok : s.result = .ok
  errPos_zero : s.errPos = 0
  out_empty : s.out = []
  win_empty : s.win = []

/-- What holds of an ended call: `ERR_POS` is 0 after `OK` and the cursor after an error (R24, R25). -/
structure DoneInv (s : State) : Prop where
  errPos_ok : s.result = .ok → s.errPos = 0
  errPos_error : s.result ≠ .ok → s.errPos = s.pos

/-- The invariant of the machine, for every value of the implementation's parameters. The clauses of `BusyInv` tie the
cursor to `N` and the window to `2^OB`, and hold while a call runs: the host may rewrite `N` and `OB` once it has ended
(R142; log entry 21). Against the largest values of the parameters the ranges hold always. -/
structure Inv (c : Config) (s : State) : Prop where
  config : configInRange c s = true
  strm_wf : Memory.wf s.strm
  strm_inRange : ∀ cell ∈ s.strm, cell.1 < c.strmCap ∧ cell.2 < 2 ^ c.symw
  pos_range : s.pos ≤ c.strmCap
  errPos_range : s.errPos ≤ c.strmCap
  out_range : s.out.length ≤ s.pos * tokenOutputBound c.lbMax
  printable_out : AllPrintable s.out
  win_suffix : s.win <:+ s.out
  busy : s.phase = .busy → BusyInv s
  idle : s.phase = .idle → IdleInv s
  done : s.phase = .done → DoneInv s

/-- The host has loaded every symbol of the stream from the cursor on (R192). -/
def Loaded (s : State) : Prop := ∀ a, s.pos ≤ a → a < s.n → (Memory.read s.strm a).isSome = true

/-- `k` steps, stopping at the first fault or refusal. -/
def runSteps : Nat → State → Host.Outcome State Fault Refusal
  | 0, s => .next s
  | k + 1, s =>
    match step s with
    | .next t => runSteps k t
    | .fault r => .fault r
    | .refused r => .refused r

/-- A whole call with no host operation pending, from an accepted `START` (R89): `N + 1` steps are enough to end it,
and a step of an ended call changes nothing. -/
def decodeCall (s : State) : Host.Outcome State Fault Refusal :=
  runSteps (s.n + 1) (startCall { s with hostQueue := [] })

/-- The bytes a back-reference emits, read from the output as it grows and not from the window (R121). -/
def copyFromOutput (offset : Nat) : Nat → List Byte → List Byte
  | 0, out => out
  | k + 1, out =>
    match out[out.length - offset]? with
    | none => out
    | some b => copyFromOutput offset k (out ++ [b])

/-- A complete token read without a window: its whole effect on the output (R121). -/
def windowFreeToken (i : Instr) (out : List Byte) : List Byte :=
  match i with
  | .lit code => if printable code then out ++ [code] else out
  | .bref offset length => if offset > out.length ∨ length = 0 then out else copyFromOutput offset length out
  | .nopx => out

/-- A list of symbols is one token after another and nothing else (R71, R72). -/
def ReadsAs (cls : Symbol → SymClass) (ob lb : Nat) : List Instr → List Symbol → Prop
  | [], syms => syms = []
  | i :: rest, syms => ∃ more, decode cls ob lb syms = .ok (i, more) ∧ ReadsAs cls ob lb rest more

/-- What `READ_RESULT` returns to the host (R146): the status, the position of the error if there was one, the length
of the output, and every byte of it in order. -/
def resultReplies (c : Config) (s : State) : List HostReply :=
  [.reg .status (regRead c .status s)] ++ (if s.result = .ok then [] else [.reg .errPos (regRead c .errPos s)]) ++
    [.reg .outLen s.out.length] ++ s.out.zipIdx.map (fun p => HostReply.out p.2 p.1)

/-- The bytes a valid back-reference with `offset ≥ 1` emits (R120): the last `offset` bytes of the window `w`, repeated
with period `offset` and cut to `length`. The default byte is never used: every index is below `|w|`. -/
def periodicCopy (w : List Byte) (offset length : Nat) : List Byte :=
  (List.range length).map (fun i => w.getD (w.length - offset + i % offset) 0)

/-- The host's part of a state and everything only the host writes (R10) is the same in two states. -/
def SameForTheHost (s t : State) : Prop :=
  t.strm = s.strm ∧ t.strmLen = s.strmLen ∧ t.cfgOb = s.cfgOb ∧ t.cfgLb = s.cfgLb ∧
    t.hostQueue = s.hostQueue ∧ t.hostSeen = s.hostSeen

/-- What a call leaves (R148) is the same in two states. -/
def SameResult (s t : State) : Prop :=
  t.out = s.out ∧ t.win = s.win ∧ t.pos = s.pos ∧ t.result = s.result ∧ t.errPos = s.errPos ∧ t.phase = s.phase

end Sys2Proof.Machine
end

