-- ==== Sys2Proof/Certificates/Slice0/Obligations.lean ====
section
/-! DEFINITION. The statements about LZ77BP, one definition each, in the order of OBLIGATIONS.json. Where a statement
rests on a choice of the spec or of the model, its docstring names the decision or the log entry. -/

open Sys2Proof Sys2Proof.Machine

/-! ## Encoding -/

/-- R65, with the decoder around it: every field of a complete token is the unsigned sum of its symbols' bits, the
first symbol the most significant, a symbol that is not '1' a 0 bit; a field of width 0 is 0. -/
def Obligations.FieldsAreUnsignedMsbFirstSums : Prop :=
  ∀ (cls : Symbol → SymClass) (ob lb : Nat) (flag : Symbol) (body : List Symbol),
    let field := fun (p n : Nat) => ∑ k ∈ Finset.range n, bit cls (body.getD (p + k) 0) * 2 ^ (n - 1 - k)
    (∀ sym, (cls sym = .s1 → bit cls sym = 1) ∧ (cls sym ≠ .s1 → bit cls sym = 0)) ∧
    (cls flag = .s0 → 8 ≤ body.length →
      field 0 8 ≤ 255 ∧
        ∃ code, decode cls ob lb (flag :: body) = .ok (.lit code, body.drop 8) ∧ code.toNat = field 0 8) ∧
    (cls flag = .s1 → ob + lb ≤ body.length →
      field 0 ob < 2 ^ ob ∧ field ob lb < 2 ^ lb ∧
        decode cls ob lb (flag :: body) = .ok (.bref (field 0 ob) (field ob lb), body.drop (ob + lb))) ∧
    (cls flag = .sX → decode cls ob lb (flag :: body) = .ok (.nopx, body))

/-- R66: the class of the first symbol alone selects the token, and every flag with enough symbols after it is one. -/
def Obligations.OpcodeIsTheClassOfTheFlag : Prop :=
  ∀ (cls : Symbol → SymClass) (ob lb : Nat) (flag : Symbol) (body : List Symbol),
    (∀ i rest, decode cls ob lb (flag :: body) = .ok (i, rest) → i.flagClass = cls flag) ∧
    (bodyLength ob lb (cls flag) ≤ body.length → ∃ i rest, decode cls ob lb (flag :: body) = .ok (i, rest))

/-- The decoder rejects exactly the lists cut short, by name. -/
def Obligations.OnlyIncompleteTokensAreRejected : Prop :=
  ∀ (cls : Symbol → SymClass) (ob lb : Nat) (syms : List Symbol) (e : DecodeError),
    decode cls ob lb syms = .error e ↔
      (syms = [] ∧ e = .noFlag) ∨
      (∃ flag body, syms = flag :: body ∧ cls flag = .s0 ∧ body.length < 8 ∧ e = .incompleteLiteral) ∨
      (∃ flag body, syms = flag :: body ∧ cls flag = .s1 ∧ body.length < ob + lb ∧ e = .incompleteBackReference)

/-- What the decoder gives has the length of its class, is followed by the symbols it did not use, and its fields are
in range. -/
def Obligations.DecodedTokensHaveTheirLength : Prop :=
  ∀ (cls : Symbol → SymClass) (ob lb : Nat) (syms : List Symbol) (i : Instr) (rest : List Symbol),
    decode cls ob lb syms = .ok (i, rest) →
      i.wellFormed ob lb = true ∧ rest = syms.drop (tokenLength ob lb i.flagClass) ∧
      tokenLength ob lb i.flagClass ≤ syms.length ∧
      (∀ code, i = .lit code → tokenLength ob lb i.flagClass = 9) ∧
      (∀ offset length, i = .bref offset length → tokenLength ob lb i.flagClass = 1 + ob + lb) ∧
      (i = .nopx → tokenLength ob lb i.flagClass = 1)

/-- A symbol of class `SX` inside a body neither stops nor splits the token: it reads as the symbol '0' would. -/
def Obligations.NonBinaryBodySymbolsReadAsZero : Prop :=
  ∀ (cls : Symbol → SymClass) (ob lb : Nat) (zero flag : Symbol) (body rest : List Symbol) (i : Instr),
    cls zero = .s0 → decode cls ob lb (flag :: body) = .ok (i, rest) →
      decode cls ob lb (flag :: body.map (fun sym => if cls sym = .sX then zero else sym)) =
        .ok (i, rest.map (fun sym => if cls sym = .sX then zero else sym))

/-- Decoding undoes encoding, whatever follows, for every well-formed token at every pair of widths. -/
def Obligations.DecodeOfEncodeIsTheToken : Prop :=
  ∀ (ob lb : Nat) (i : Instr) (rest : List Symbol), i.wellFormed ob lb = true →
    decode Config.decided.cls ob lb (encode ob lb i ++ rest) = .ok (i, rest)

/-- Encoding undoes decoding on streams of the characters '0' and '1': such a stream has one reading and one
spelling. -/
def Obligations.EncodeOfDecodeOnBinaryStreams : Prop :=
  ∀ (ob lb : Nat) (syms rest : List Symbol) (i : Instr), (∀ sym ∈ syms, sym = zeroSymbol ∨ sym = oneSymbol) →
    decode Config.decided.cls ob lb syms = .ok (i, rest) → syms = encode ob lb i ++ rest

/-- Words written out from the encoding tables: `LIT 65`, `BREF 2, 5` and `BREF 511, 7` at the widths 9 and 3, `BREF`
at the widths 0 and 0, and `NOPX`. -/
def Obligations.SampleWordsDecode : Prop :=
  decode Config.decided.cls 9 3 [0x30, 0x30, 0x31, 0x30, 0x30, 0x30, 0x30, 0x30, 0x31] = .ok (.lit 65, []) ∧
  decode Config.decided.cls 9 3
      [0x31, 0x30, 0x30, 0x30, 0x30, 0x30, 0x30, 0x30, 0x31, 0x30, 0x31, 0x30, 0x31] = .ok (.bref 2 5, []) ∧
  decode Config.decided.cls 9 3
      [0x31, 0x31, 0x31, 0x31, 0x31, 0x31, 0x31, 0x31, 0x31, 0x31, 0x31, 0x31, 0x31] = .ok (.bref 511 7, []) ∧
  decode Config.decided.cls 0 0 [0x31] = .ok (.bref 0 0, []) ∧
  decode Config.decided.cls 9 3 [0x78] = .ok (.nopx, [])

/-! ## The window, the output and the stream's memory -/

/-- R130: `Append` adds the byte to `out` and to `win` together, touches nothing else and never fails; and no byte
enters them in another way: a step empties both, or adds the same bytes to the output and, behind those already there,
to the window, of which some of the oldest may have been dropped. -/
def Obligations.AppendFeedsOutputAndWindow : Prop :=
  (∀ (b : Byte) (s : State),
    append b s = { s with out := s.out ++ [b], win := s.win ++ [b] } ∧
      (append b s).out.length = s.out.length + 1) ∧
  (∀ s t : State, step s = .next t →
    (t.out = [] ∧ t.win = []) ∨ ∃ e, t.out = s.out ++ e ∧ t.win <:+ s.win ++ e)

/-- `Trim` leaves the newest `min(|win|, W)` bytes, drops nothing from a window within its bound, and touches nothing
else. -/
def Obligations.TrimKeepsTheNewestBytes : Prop :=
  ∀ s : State,
    trim s = { s with win := keepNewest s.window s.win } ∧
      (trim s).win.length = min s.win.length s.window ∧
      (s.win.length ≤ s.window → trim s = s)

/-- A symbol stored is the symbol read back, and every other index reads as before. -/
def Obligations.ReadAfterWriteOfTheStream : Prop :=
  ∀ (m : Memory) (a b : Nat) (sym : Symbol),
    Memory.read (Memory.write m a sym) b = if b = a then some sym else Memory.read m b

/-- Storing a symbol keeps the canonical form, and equal readings are equal memories in that form. -/
def Obligations.CanonicalFormIsKeptAndUnique : Prop :=
  (∀ (m : Memory) (a : Nat) (sym : Symbol), Memory.wf m → Memory.wf (Memory.write m a sym)) ∧
  (∀ m m' : Memory, Memory.wf m → Memory.wf m' → (∀ a, Memory.read m a = Memory.read m' a) → m = m')

/-! ## The tokens -/

/-- R102: a complete `LIT` consumes its 9 symbols; a byte from 32 to 126 is appended to output and window, any other
byte changes neither. The next state is given whole, so it is also the frame. After the append the window keeps its
newest `W` bytes. -/
def Obligations.LitAppendsPrintableBytesOnly : Prop :=
  ∀ (code : Byte) (s : State), s.pos + 9 ≤ s.n →
    (32 ≤ code.toNat ∧ code.toNat ≤ 126 →
      exec (.lit code) s = .next { s with
        pos := s.pos + 9
        out := s.out ++ [code]
        win := keepNewest s.window (s.win ++ [code]) }) ∧
    (¬ (32 ≤ code.toNat ∧ code.toNat ≤ 126) → s.win.length ≤ s.window →
      exec (.lit code) s = .next { s with pos := s.pos + 9 })

/-- A `LIT` whose body does not fit ends the call with `IncompleteLiteral` at the cursor past the flag; output and
window are unchanged. The position is the spec's decision D3 (log entry 3). -/
def Obligations.LitCutShortEndsTheCall : Prop :=
  ∀ (code : Byte) (s : State), s.n < s.pos + 9 →
    exec (.lit code) s = .next { s with
      pos := s.pos + 1, result := .incLit, errPos := s.pos + 1, phase := .done }

/-- R115 and R116: a valid complete `BREF` starts its copy at `L0 − offset`, each iteration tests its index against
the window as it is then, reads the byte and appends it before the next one; the trim comes after the last. -/
def Obligations.BrefCopiesOneByteAtATime : Prop :=
  (∀ (offset length : Nat) (s : State), s.pos + (1 + s.ob + s.lb) ≤ s.n → offset ≤ s.win.length → length ≠ 0 →
    exec (.bref offset length) s =
      .next (trim (copyLoop (s.win.length - offset) length { s with pos := s.pos + (1 + s.ob + s.lb) }))) ∧
  (∀ (src : Nat) (s : State), copyLoop src 0 s = s) ∧
  (∀ (src k : Nat) (s : State), s.win.length ≤ src → copyLoop src (k + 1) s = s) ∧
  (∀ (src k : Nat) (b : Byte) (s : State), s.win[src]? = some b →
    copyLoop src (k + 1) s = copyLoop (src + 1) k (append b s))

/-- R114: a complete `BREF` with `offset > |win|` or `length = 0` changes the cursor only; `offset = |win|` is valid
and its first byte is the oldest byte of the window; `offset = 0` is not rejected. -/
def Obligations.InvalidBrefIsSkipped : Prop :=
  ∀ (offset length : Nat) (s : State), s.pos + (1 + s.ob + s.lb) ≤ s.n → s.win.length ≤ s.window →
    (offset > s.win.length ∨ length = 0 →
      exec (.bref offset length) s = .next { s with pos := s.pos + (1 + s.ob + s.lb) }) ∧
    (offset = s.win.length → length ≠ 0 → ∀ b, s.win[0]? = some b →
      ∃ t, exec (.bref offset length) s = .next t ∧ t.out[s.out.length]? = some b) ∧
    (length ≠ 0 → brefValid 0 length s = true)

/-- A complete `BREF` with `offset = 0` emits nothing, whatever its length. -/
def Obligations.ZeroOffsetCopiesNothing : Prop :=
  ∀ (length : Nat) (s : State), s.pos + (1 + s.ob + s.lb) ≤ s.n → s.win.length ≤ s.window →
    exec (.bref 0 length) s = .next { s with pos := s.pos + (1 + s.ob + s.lb) }

/-- The closed form of a valid copy with `offset ≥ 1`: the last `offset` bytes of the window repeated with period
`offset` and cut to `length` are appended to the output, and the window keeps its newest `W` bytes. -/
def Obligations.BrefEmitsAPeriodicCopy : Prop :=
  ∀ (offset length : Nat) (s : State), s.pos + (1 + s.ob + s.lb) ≤ s.n →
    1 ≤ offset → offset ≤ s.win.length → length ≠ 0 →
    exec (.bref offset length) s = .next { s with
      pos := s.pos + (1 + s.ob + s.lb)
      out := s.out ++ periodicCopy s.win offset length
      win := keepNewest s.window (s.win ++ periodicCopy s.win offset length) }

/-- A `BREF` whose two fields do not fit together ends the call with `IncompleteBackReference` at the cursor past the
flag; output and window are unchanged. The position is the spec's decision D3 (log entry 3). -/
def Obligations.BrefCutShortEndsTheCall : Prop :=
  ∀ (offset length : Nat) (s : State), s.n < s.pos + (1 + s.ob + s.lb) →
    exec (.bref offset length) s = .next { s with
      pos := s.pos + 1, result := .incBref, errPos := s.pos + 1, phase := .done }

/-- R64: `NOPX` is one symbol with no fields, a no-op that consumes just the flag; in a running call the step does
that and then the test for the end of the stream, which is one step by the spec's decision D13 (log entry 12). -/
def Obligations.NopxConsumesJustTheFlag : Prop :=
  (∀ s : State, exec .nopx s = .next { s with pos := s.pos + 1 }) ∧
  (∀ (s : State) (sym : Symbol), s.phase = .busy → s.hostQueue = [] → s.pos < s.n →
    Memory.read s.strm s.pos = some sym → sym ≠ zeroSymbol → sym ≠ oneSymbol →
    step s = .next (endOfStreamTest { s with pos := s.pos + 1 }))

/-- R164: a complete token never raises an error, whatever its fields hold: it advances the cursor by its length and
sets no status. -/
def Obligations.CompleteTokensSetNoStatus : Prop :=
  ∀ (i : Instr) (s : State), s.pos + tokenLength s.ob s.lb i.flagClass ≤ s.n →
    ∃ t, exec i s = .next t ∧ t.pos = s.pos + tokenLength s.ob s.lb i.flagClass ∧
      t.phase = s.phase ∧ t.result = s.result ∧ t.errPos = s.errPos

/-- The frame of every token: the stream, the configuration and the host's side stay, every index of `STRM` reads as
before, the output is only appended to, and status changes only together with the end of the call. -/
def Obligations.TokensLeaveTheRestAlone : Prop :=
  ∀ (i : Instr) (s t : State), exec i s = .next t →
    SameForTheHost s t ∧ (∀ a, Memory.read t.strm a = Memory.read s.strm a) ∧ s.out <+: t.out ∧
    (∀ a, a < s.out.length → t.out[a]? = s.out[a]?) ∧
    ((t.phase = s.phase ∧ t.result = s.result ∧ t.errPos = s.errPos) ∨
      (t.phase = .done ∧ t.out = s.out ∧ t.win = s.win))

/-- One well-formed token emits at most one byte (`LIT`), at most `2^LB − 1` bytes (`BREF`), or none (`NOPX`), and the
window takes the same bytes: the old window and the emitted bytes, of which the newest stay. -/
def Obligations.OneTokenEmitsBoundedOutput : Prop :=
  ∀ (i : Instr) (s t : State), i.wellFormed s.ob s.lb = true → s.win.length ≤ s.window → exec i s = .next t →
    ∃ e, t.out = s.out ++ e ∧ t.win = keepNewest s.window (s.win ++ e) ∧
      (i.flagClass = .s0 → e.length ≤ 1) ∧ (i.flagClass = .s1 → e.length ≤ 2 ^ s.lb - 1) ∧
      (i.flagClass = .sX → e = [])

/-- Inside a token, before the trim, the window passes its bound by at most 1 byte (`LIT`) or `2^LB − 1` bytes
(`BREF`). -/
def Obligations.TransientWindowIsBounded : Prop :=
  ∀ s : State, s.win.length ≤ s.window →
    (∀ code, (appendPrintable code s).win.length ≤ s.window + 1) ∧
    (∀ offset length, length < 2 ^ s.lb → (copyBytes offset length s).win.length ≤ s.window + (2 ^ s.lb - 1))

/-- With `LB` = 0 or `OB` = 0 every well-formed back-reference that is complete consumes its symbols and does nothing
else; with both 0 it is the one symbol of its flag. -/
def Obligations.DegenerateWidthsEmitNothing : Prop :=
  ∀ (offset length : Nat) (s : State), (Instr.bref offset length).wellFormed s.ob s.lb = true →
    s.win.length ≤ s.window → s.ob = 0 ∨ s.lb = 0 → s.pos + (1 + s.ob + s.lb) ≤ s.n →
    exec (.bref offset length) s = .next { s with pos := s.pos + (1 + s.ob + s.lb) }

/-- The window bound changes nothing: where the window mirrors the output, a well-formed complete token does to the
output what the window-free reading says, its validity is the same against the whole output, and the window mirrors
the output again. -/
def Obligations.WindowFreeReadingAgrees : Prop :=
  ∀ (i : Instr) (s : State), i.wellFormed s.ob s.lb = true → s.win = keepNewest s.window s.out →
    s.pos + tokenLength s.ob s.lb i.flagClass ≤ s.n →
    (∀ offset length, i = .bref offset length → (offset > s.win.length ↔ offset > s.out.length)) ∧
    ∃ t, exec i s = .next t ∧ t.out = windowFreeToken i s.out ∧ t.win = keepNewest s.window t.out

/-- A ring of `W` bytes realises the window: the empty ring holds the empty window, and a well-formed complete token
makes the ring emit the same bytes and hold the new window. -/
def Obligations.RingRealisesTheWindow : Prop :=
  (∀ ob : Nat, Ring.Realises (2 ^ ob) (Ring.empty (2 ^ ob)) []) ∧
  ∀ (i : Instr) (s : State) (r : Ring), i.wellFormed s.ob s.lb = true → Ring.Realises s.window r s.win →
    s.pos + tokenLength s.ob s.lb i.flagClass ≤ s.n →
    ∃ t, exec i s = .next t ∧ (ringToken i (r, s.out)).2 = t.out ∧
      Ring.Realises s.window (ringToken i (r, s.out)).1 t.win

/-! ## The sequencer and whole calls -/

/-- A step runs the decoded token: where a call runs, the host leaves the step to the core, and the symbols from the
cursor on, within the stream, decode to a token with nothing left over, the step is the token's `exec` and then the
test for the end of the stream. That one token with the test after it is one step is the spec's decision D13 (log entry
12); that the host leaves a step to the core by an empty list or by `pass` is the model's schedule (log entry 15). -/
def Obligations.StepRunsTheDecodedToken : Prop :=
  ∀ (s t : State) (i : Instr) (syms : List Symbol), s.phase = .busy → s.hostQueue = [] →
    s.pos + syms.length ≤ s.n → (∀ k, k < syms.length → Memory.read s.strm (s.pos + k) = syms[k]?) →
    decode Config.decided.cls s.ob s.lb syms = .ok (i, []) → exec i s = .next t →
    step s = .next (endOfStreamTest t) ∧
    (∀ rest, step { s with hostQueue := .pass :: rest } =
      (match exec i { s with hostQueue := rest } with
        | .next u => .next (endOfStreamTest u)
        | .fault r => .fault r
        | .refused r => .refused r))

/-- R86: after a token has completed without error with the cursor at the end, the call ends `OK`, and nothing but
`phase` and `result` changes; with symbols left the call goes on. So a stream that is a whole number of tokens, at
least one, ends `OK` with the cursor at `N` and `err_pos` still 0, whatever symbols of class `SX` stand in it. -/
def Obligations.EndOfStreamEndsTheCallOk : Prop :=
  (∀ (i : Instr) (s t : State), s.phase = .busy → exec i s = .next t → t.phase = .busy →
    (t.n ≤ t.pos → finishToken Config.decided (exec i s) = .next { t with result := .ok, phase := .done }) ∧
    (t.pos < t.n → finishToken Config.decided (exec i s) = .next t)) ∧
  (∀ (tokens : List Instr) (syms : List Symbol) (s : State), tokens ≠ [] →
    ReadsAs Config.decided.cls s.ob s.lb tokens syms → s.n = syms.length →
    Memory.readRun s.strm 0 s.n = some syms →
    ∃ t, decodeCall s = .next t ∧ t.phase = .done ∧ t.result = .ok ∧ t.errPos = 0 ∧ t.pos = s.n)

/-- A running call with no room for a flag ends at once: with `UnexpectedEndOfStream` at the cursor, or `OK` under the
other value of the parameter, and with nothing else changed. The reading of the empty stream is the spec's decision D2
(log entry 2). -/
def Obligations.EmptyStreamEndsTheCall : Prop :=
  ∀ (c : Config) (s : State), s.phase = .busy → s.hostQueue = [] → s.n < s.pos + 1 →
    (c.emptyStreamIsError = true →
      stepIn c s = .next { s with result := .eos, errPos := s.pos, phase := .done }) ∧
    (c.emptyStreamIsError = false → stepIn c s = .next { s with result := .ok, phase := .done })

/-- A token cut short by the end of the stream: the step consumes the flag, reads no body symbol, and ends the call
with the error of the flag's class at the cursor past the flag (the spec's decision D3, log entry 3). -/
def Obligations.TokenCutShortEndsTheCall : Prop :=
  ∀ (s : State) (flag : Symbol), s.phase = .busy → s.hostQueue = [] → s.pos < s.n →
    Memory.read s.strm s.pos = some flag →
    (flag = zeroSymbol → s.n < s.pos + 9 →
      step s = .next { s with pos := s.pos + 1, result := .incLit, errPos := s.pos + 1, phase := .done }) ∧
    (flag = oneSymbol → s.n < s.pos + (1 + s.ob + s.lb) →
      step s = .next { s with pos := s.pos + 1, result := .incBref, errPos := s.pos + 1, phase := .done })

/-- R167: at most one error can apply to a step of the core: with no room for a flag the end of the stream; else, by
the class of the flag, the error of its one body test; a `NOPX` raises nothing. -/
def Obligations.AtMostOneErrorApplies : Prop :=
  ∀ s t : State, s.phase = .busy → s.hostQueue = [] → step s = .next t → t.phase = .done →
    (t.result = .eos → s.n < s.pos + 1) ∧
    (t.result = .incLit → s.pos + 1 ≤ s.n ∧ Memory.read s.strm s.pos = some zeroSymbol ∧ s.n < s.pos + 9) ∧
    (t.result = .incBref →
      s.pos + 1 ≤ s.n ∧ Memory.read s.strm s.pos = some oneSymbol ∧ s.n < s.pos + (1 + s.ob + s.lb)) ∧
    (∀ sym, Memory.read s.strm s.pos = some sym → sym ≠ zeroSymbol → sym ≠ oneSymbol → s.pos + 1 ≤ s.n →
      t.result = .ok)

/-- Errors are precise: a step that ends a running call with an error changes the cursor only by the flag, leaves
output and window as the completed tokens left them, and records the cursor. That a token cut short records the cursor
past its flag is the spec's decision D3 (log entry 3). -/
def Obligations.ErrorsArePrecise : Prop :=
  ∀ s t : State, s.phase = .busy → s.hostQueue = [] → step s = .next t → t.phase = .done → t.result ≠ .ok →
    t.out = s.out ∧ t.win = s.win ∧ t.errPos = t.pos ∧
      (t.result = .eos → t.pos = s.pos) ∧ (t.result ≠ .eos → t.pos = s.pos + 1) ∧ SameForTheHost s t

/-- A running call over a loaded stream never stops: the step answers a next state, in which the rest of the stream is
still loaded. -/
def Obligations.LoadedCallsNeverStop : Prop :=
  ∀ s : State, s.phase = .busy → s.hostQueue = [] → Loaded s →
    ∃ t, step s = .next t ∧ Loaded t ∧ SameForTheHost s t ∧ (t.phase = .busy ∨ t.phase = .done)

/-- A finite output capacity is never a silent truncation: the step is the one of the unbounded output, or it is
refused because that step's output passes the capacity (the spec's decision D10, log entry 9). -/
def Obligations.FiniteOutputCapacityRefuses : Prop :=
  ∀ (c : Config) (cap : Nat) (s : State), c.outCap = some cap → s.out.length ≤ cap →
    (∀ t, stepIn c s = .next t → stepIn { c with outCap := none } s = .next t ∧ t.out.length ≤ cap) ∧
    (∀ t, stepIn { c with outCap := none } s = .next t → cap < t.out.length →
      stepIn c s = .refused .outCapExceeded) ∧
    (∀ t, stepIn { c with outCap := none } s = .next t → t.out.length ≤ cap → stepIn c s = .next t)

/-- The invariant holds after reset, at every value of the implementation's parameters. -/
def Obligations.InvariantHoldsAtReset : Prop := ∀ c : Config, Inv c State.reset

/-- Every step keeps the invariant, at every value of the implementation's parameters. In every phase: the widths and
the length in range, the canonical stream memory of symbols of `SYMW` bits, printable output, the window a final part
of the output, the cursor and the error position at most `STRM_CAP`, and `out_len ≤ pos * max(1, 2^LB_MAX − 1)`. Only
while a call runs (log entry 21): the cursor before `N`, the window as the output's newest `min(out_len, W)` bytes, and
`out_len ≤ pos * max(1, 2^LB − 1)`. After a call: the error position is 0 if it ended `OK` and the cursor if it ended
in an error, which are the spec's decisions D12 and D19 (log entry 11). -/
def Obligations.EveryStepKeepsTheInvariant : Prop :=
  (∀ s t : State, Inv Config.decided s → step s = .next t → Inv Config.decided t) ∧
  (∀ (c : Config) (s t : State), Inv c s → stepIn c s = .next t → Inv c t)

/-- Every call ends: with the stream loaded and no host operation pending, a running call is over after at most one
step per symbol left. -/
def Obligations.EveryCallEnds : Prop :=
  ∀ s : State, s.phase = .busy → s.hostQueue = [] → Loaded s →
    ∃ t, runSteps (max 1 (s.n - s.pos)) s = .next t ∧ t.phase = .done

/-- A stream of literals decodes to its text, at every pair of widths: the `STR` encoding of a printable text round
trips, with the newest bytes in the window; the empty text gives the empty output and the end-of-stream error (the
spec's decision D2, log entry 2). -/
def Obligations.LiteralStreamsRoundTrip : Prop :=
  ∀ (text : List Byte) (syms : List Symbol) (s : State), AllPrintable text →
    assemble s.ob s.lb (strTokens text) = some syms → s.n = syms.length →
    Memory.readRun s.strm 0 s.n = some syms →
    ∃ t, decodeCall s = .next t ∧ t.phase = .done ∧ t.out = text ∧ s.n = 9 * text.length ∧ t.pos = s.n ∧
      t.errPos = 0 ∧ t.win = keepNewest s.window text ∧
      (text ≠ [] → t.result = .ok) ∧ (text = [] → t.result = .eos)

/-- The whole of a call in one line: a stream that reads as tokens, at least one, ends with the output that reading the
tokens one after another without a window gives, and with the newest `W` bytes of it in the window. A stream assembled
from well-formed tokens reads as these tokens. -/
def Obligations.AssembledProgramsRunTokenByToken : Prop :=
  (∀ (ob lb : Nat) (tokens : List Instr) (syms : List Symbol),
    assemble ob lb tokens = some syms → ReadsAs Config.decided.cls ob lb tokens syms) ∧
  (∀ (tokens : List Instr) (syms : List Symbol) (s : State), tokens ≠ [] →
    ReadsAs Config.decided.cls s.ob s.lb tokens syms → s.n = syms.length →
    Memory.readRun s.strm 0 s.n = some syms →
    ∃ t, decodeCall s = .next t ∧ t.phase = .done ∧
      t.out = tokens.foldl (fun out i => windowFreeToken i out) [] ∧ t.win = keepNewest s.window t.out)

/-- R149: a call computes a pure function of `STRM[0 .. N−1]`, `N`, `OB` and `LB`: two blocks that agree on these end
the call with the same output, result and position (and window and cursor), whatever else they held before. It has no
other effect: the stream, its length, the widths and what the host has read stay. -/
def Obligations.CallsAreAPureFunction : Prop :=
  ∀ a b t : State, b.strmLen = a.strmLen → b.cfgOb = a.cfgOb → b.cfgLb = a.cfgLb →
    (∀ k, k < a.n → Memory.read b.strm k = Memory.read a.strm k) → decodeCall a = .next t →
    t.strm = a.strm ∧ t.strmLen = a.strmLen ∧ t.cfgOb = a.cfgOb ∧ t.cfgLb = a.cfgLb ∧ t.hostSeen = a.hostSeen ∧
    ∃ u, decodeCall b = .next u ∧ SameResult t u

/-- The prefix property at the fault: a call cut exactly at the position of its error ends with the same error, the
same position and the same output. The position of a token cut short is the one past its flag, the spec's decision D3
(log entry 3), and error and position agree only under it: cut at the flag itself, the call would end before the
flag. -/
def Obligations.CutAtTheErrorGivesTheSameResult : Prop :=
  ∀ s t : State, decodeCall s = .next t → t.result ≠ .ok →
    ∃ u, decodeCall { s with strmLen := t.errPos } = .next u ∧
      u.out = t.out ∧ u.result = t.result ∧ u.errPos = t.errPos

/-- The prefix property of streams: the output of a stream cut anywhere is a prefix of the output of the whole. -/
def Obligations.PrefixStreamsGivePrefixOutputs : Prop :=
  ∀ (s t : State) (m : Nat), m ≤ s.n → decodeCall s = .next t →
    ∃ u, decodeCall { s with strmLen := m } = .next u ∧ u.out <+: t.out

/-! ## The host, reset and whole-machine rules -/

/-- Reset leaves what R29's table says; `STRM` holds nothing readable and the host's lists are empty, which are the
model's choices (log entries 14 and 15). -/
def Obligations.ResetValues : Prop :=
  (∀ c r, regRead c r State.reset = 0) ∧ State.reset.phase = .idle ∧ State.reset.result = .ok ∧
    State.reset.out = [] ∧ State.reset.win = [] ∧ (∀ a, Memory.read State.reset.strm a = none) ∧
    State.reset.hostQueue = [] ∧ State.reset.hostSeen = []

/-- The host's next operation is the step, before the core's next token; a step with no operation pending and no call
running changes nothing. The schedule is the model's (log entry 15). -/
def Obligations.HostOperationsComeFirst : Prop :=
  ∀ (c : Config) (s : State),
    (∀ (op : HostOp) (rest : List HostOp), s.hostQueue = op :: rest → op ≠ .pass →
      stepIn c s = hostStep c op { s with hostQueue := rest }) ∧
    (s.hostQueue = [] → s.phase ≠ .busy → stepIn c s = .next s) ∧
    step s = stepIn Config.decided s

/-- An accepted `START` sets the cursor, the window, the output, the result and the error position to their initial
values and starts the call (R191, R144); the registers the host owns and `STRM` survive. That it is a write of 1 to bit
0 of `CTRL`, accepted in `IDLE` and `DONE`, is the spec's decision D6 (log entry 6). With the widths and the length in
range, which every step keeps (`Inv`), it is accepted, and otherwise it is refused (R151, U2; the spec's decision D8,
log entry 23). That the pending operation is the step is the model's schedule (log entry 15). -/
def Obligations.StartInitialisesTheCall : Prop :=
  ∀ (c : Config) (s : State) (w : Word) (rest : List HostOp), s.hostQueue = .writeReg .ctrl w :: rest →
    w % 2 = 1 → s.phase ≠ .busy →
    (s.ob ≤ c.obMax ∧ s.lb ≤ c.lbMax ∧ s.n ≤ c.strmCap →
      stepIn c s = .next { s with
        pos := 0, win := [], out := [], result := .ok, errPos := 0, phase := .busy, hostQueue := rest }) ∧
    (¬ (s.ob ≤ c.obMax ∧ s.lb ≤ c.lbMax ∧ s.n ≤ c.strmCap) → stepIn c s = .refused .configOutOfRange)

/-- A write of `CTRL` has no effect while a call runs, nor when bit 0 of the value is 0 (the spec's decision D6, log
entry 6). -/
def Obligations.StartIsIgnoredWhileBusy : Prop :=
  ∀ (c : Config) (s : State) (w : Word) (rest : List HostOp), s.hostQueue = .writeReg .ctrl w :: rest →
    s.phase = .busy ∨ w % 2 = 0 → stepIn c s = .next { s with hostQueue := rest }

/-- While a call runs the host may read `STATUS`, write `CTRL`, pass and reset, and everything else is refused (the
spec's decision D7, log entry 7). -/
def Obligations.BusyHostAccessIsRefused : Prop :=
  ∀ (c : Config) (s : State) (op : HostOp) (rest : List HostOp), s.phase = .busy → s.hostQueue = op :: rest →
    op ≠ .pass → op ≠ .hardReset → op ≠ .readReg .status → (∀ w, op ≠ .writeReg .ctrl w) →
    stepIn c s = .refused .hostAccessWhileBusy

/-- A write of a configuration register between calls takes the bits of its field and changes nothing else, the
results of the last call included; a value above the largest legal one is refused, and at the decided values there is
none (the spec's decisions D5, D7 and D8, log entries 5, 7 and 23). -/
def Obligations.ConfigurationWritesTakeTheirField : Prop :=
  (∀ (c : Config) (s : State) (w : Word) (rest : List HostOp), s.phase ≠ .busy →
    (s.hostQueue = .writeReg .cfgOb w :: rest →
      stepIn c s =
        if w % 2 ^ Nat.clog 2 (c.obMax + 1) ≤ c.obMax then
          .next { s with cfgOb := w % 2 ^ Nat.clog 2 (c.obMax + 1), hostQueue := rest }
        else .refused .configOutOfRange) ∧
    (s.hostQueue = .writeReg .cfgLb w :: rest →
      stepIn c s =
        if w % 2 ^ Nat.clog 2 (c.lbMax + 1) ≤ c.lbMax then
          .next { s with cfgLb := w % 2 ^ Nat.clog 2 (c.lbMax + 1), hostQueue := rest }
        else .refused .configOutOfRange) ∧
    (s.hostQueue = .writeReg .strmLen w :: rest →
      stepIn c s =
        if w % 2 ^ c.posw ≤ c.strmCap then .next { s with strmLen := w % 2 ^ c.posw, hostQueue := rest }
        else .refused .configOutOfRange)) ∧
  (∀ w : Word, w % 2 ^ Nat.clog 2 (Config.decided.obMax + 1) ≤ Config.decided.obMax ∧
    w % 2 ^ Nat.clog 2 (Config.decided.lbMax + 1) ≤ Config.decided.lbMax ∧
    w % 2 ^ Config.decided.posw ≤ Config.decided.strmCap)

/-- `CONFIGURE`, `LOAD` and `START` from any phase but `BUSY`: after one step per operation the call stands at its
beginning, with the widths and the length written and every symbol, cut to its 8 bits, loaded where the stream has it
(the spec's decisions D1, D5 and D6). That each operation is a step of its own is the model's schedule (log entry
15). -/
def Obligations.ConfigureLoadStartBeginsTheCall : Prop :=
  ∀ (s : State) (ob lb : Word) (syms : List Symbol) (rest : List HostOp), s.phase ≠ .busy →
    syms.length < 2 ^ 32 →
    s.hostQueue = configureOps ob lb ++ loadOps syms ++ startOps ++ rest →
    ∃ t, runSteps (syms.length + 4) s = .next t ∧
      t.phase = .busy ∧ t.pos = 0 ∧ t.out = [] ∧ t.win = [] ∧ t.result = .ok ∧ t.errPos = 0 ∧
      t.ob = ob % 32 ∧ t.lb = lb % 32 ∧ t.n = syms.length ∧ t.hostQueue = rest ∧
      (∀ k, k < syms.length → Memory.read t.strm k = syms[k]?.map (· % 256)) ∧
      (∀ a, syms.length ≤ a → Memory.read t.strm a = Memory.read s.strm a)

/-- A register read between calls returns the register's value and has no other effect; `STATUS` may be read at any
time (the spec's decisions D5 and D7). -/
def Obligations.RegisterReadsReturnTheirValue : Prop :=
  ∀ (c : Config) (s : State) (r : Reg) (rest : List HostOp), s.hostQueue = .readReg r :: rest →
    s.phase ≠ .busy ∨ r = .status →
    stepIn c s = .next { s with hostQueue := rest, hostSeen := s.hostSeen ++ [.reg r (regRead c r s)] }

/-- The registers: each has its number and its width of R19's table, `CTRL` reads 0, and each of the others reads the
low bits of what its name says, which is all of it in every state that meets the invariant, if the widths respect what
R6 asks of them (the spec's decisions D5, D8, D12, D18, D19). -/
def Obligations.RegisterMap : Prop :=
  (Reg.number .ctrl = 0 ∧ Reg.number .status = 1 ∧ Reg.number .cfgOb = 2 ∧ Reg.number .cfgLb = 3 ∧
    Reg.number .strmLen = 4 ∧ Reg.number .pos = 5 ∧ Reg.number .errPos = 6 ∧ Reg.number .outLen = 7 ∧
    Reg.number .winLen = 8) ∧
  (∀ (c : Config) (s : State), regRead c .ctrl s = 0 ∧ regRead c .status s < 2 ^ 5 ∧
    regRead c .cfgOb s = s.ob % 2 ^ Nat.clog 2 (c.obMax + 1) ∧
    regRead c .cfgLb s = s.lb % 2 ^ Nat.clog 2 (c.lbMax + 1) ∧ regRead c .strmLen s = s.n % 2 ^ c.posw ∧
    regRead c .pos s = s.pos % 2 ^ c.posw ∧ regRead c .errPos s = s.errPos % 2 ^ c.posw ∧
    regRead c .outLen s = s.out.length % 2 ^ c.lenw ∧ regRead c .winLen s = s.win.length % 2 ^ c.lenw) ∧
  (∀ (c : Config) (s : State), c.wf → Inv c s →
    regRead c .cfgOb s = s.ob ∧ regRead c .cfgLb s = s.lb ∧ regRead c .strmLen s = s.n ∧
      regRead c .pos s = s.pos ∧ regRead c .errPos s = s.errPos ∧ regRead c .outLen s = s.out.length ∧
      regRead c .winLen s = s.win.length) ∧
  Config.decided.wf

/-- `STATUS`: bit 0 is 1 exactly in `BUSY`, bit 1 exactly in `DONE`, bits 4 to 2 are the code of the result in `DONE`
and 0 otherwise, and the bits above read 0 (the spec's decisions D4 and D6, log entries 4 and 6). -/
def Obligations.StatusShowsPhaseAndResult : Prop :=
  ∀ (c : Config) (s : State),
    ((regRead c .status s).testBit 0 = true ↔ s.phase = .busy) ∧
    ((regRead c .status s).testBit 1 = true ↔ s.phase = .done) ∧
    (s.phase = .done → regRead c .status s / 4 = resultCode s.result) ∧
    (s.phase ≠ .done → regRead c .status s / 4 = 0) ∧
    resultCode .ok = 0 ∧ resultCode .eos = 1 ∧ resultCode .incLit = 2 ∧ resultCode .incBref = 3

/-- Reading the output between calls: a byte below `OUT_LEN` is returned with no other effect, and at or past it the
read is refused (the spec's decision D5; U6, log entry 17). `READ_RESULT` in `DONE` reads the status, the position of
the error only if the result is not `OK`, the length, and then every byte of the output in order, and changes nothing
but what the host has read; before the first call has ended and while a call runs it is refused (the spec's decision
D5; log entry 17). -/
def Obligations.OutputIsReadBelowItsLength : Prop :=
  (∀ (c : Config) (s : State) (a : Nat) (rest : List HostOp), s.phase ≠ .busy → s.hostQueue = .readOut a :: rest →
    (∀ b, s.out[a]? = some b →
      stepIn c s = .next { s with hostQueue := rest, hostSeen := s.hostSeen ++ [.out a b] }) ∧
    (s.out.length ≤ a → stepIn c s = .refused .outByteUnspecified)) ∧
  (∀ (s : State) (rest : List HostOp), s.hostQueue = readResultOps ++ rest →
    (s.phase = .done → s.out.length < 2 ^ 64 →
      runSteps (s.out.length + if s.result = .ok then 2 else 3) s =
        .next { s with hostQueue := rest, hostSeen := s.hostSeen ++ resultReplies Config.decided s }) ∧
    (s.phase = .idle → step s = .refused .noResultYet) ∧
    (s.phase = .busy → step s = .refused .hostAccessWhileBusy))

/-- One symbol of the stream, written and read by the host between calls: the write stores its `SYMW` bits and changes
that index only, and the read of a loaded index below `STRM_LEN` returns it. Reads elsewhere are refused (U6, log
entry 17). -/
def Obligations.HostWritesAndReadsTheStream : Prop :=
  ∀ (c : Config) (s : State) (a : Nat) (sym : Symbol) (rest : List HostOp), s.phase ≠ .busy → a < c.strmCap →
    (s.hostQueue = .writeStrm a sym :: rest →
      ∃ t, stepIn c s = .next t ∧ t = { s with strm := t.strm, hostQueue := rest } ∧
        ∀ b, Memory.read t.strm b = if b = a then some (sym % 2 ^ c.symw) else Memory.read s.strm b) ∧
    (s.hostQueue = .readStrm a :: rest →
      (a < s.n → Memory.read s.strm a = some sym →
        stepIn c s = .next { s with hostQueue := rest, hostSeen := s.hostSeen ++ [.strm a sym] }) ∧
      (s.n ≤ a ∨ Memory.read s.strm a = none → stepIn c s = .refused .strmSymbolUnspecified))

/-- Hardware reset at any time, also while a call runs: the block is as after any reset, and only the host's own lists
remain (the spec's decision D9; log entry 18). -/
def Obligations.HardwareResetAtAnyTime : Prop :=
  ∀ (c : Config) (s : State) (rest : List HostOp), s.hostQueue = .hardReset :: rest →
    stepIn c s = .next { State.reset with hostQueue := rest, hostSeen := s.hostSeen }

/-- There is no return from the end of a call (R168): a step from `DONE` keeps the whole result, or accepts a `START`,
which clears result and error position and begins at symbol 0 with an empty window and an empty output, or is a
hardware reset. The form of `START` is the spec's decision D6 (log entry 6), what a reset leaves is its decision D9 (log
entries 8 and 18), and what is a step is the model's schedule (log entry 15). -/
def Obligations.EndedCallsAreFrozen : Prop :=
  ∀ s t : State, s.phase = .done → step s = .next t →
    SameResult s t ∨
    (t.phase = .busy ∧ t.pos = 0 ∧ t.out = [] ∧ t.win = [] ∧ t.result = .ok ∧ t.errPos = 0 ∧
      ∃ w rest, s.hostQueue = .writeReg .ctrl w :: rest ∧ w % 2 = 1) ∨
    (t = { State.reset with hostQueue := t.hostQueue, hostSeen := s.hostSeen } ∧
      ∃ rest, s.hostQueue = .hardReset :: rest)

/-- No token, and no host step but a hardware reset, changes the stream while a call runs (R52), nor its length or the
widths (R10). That no host step does is by the refusals of the spec's decision D7 (R208, log entry 7). -/
def Obligations.RunningCallsFreezeTheirInput : Prop :=
  ∀ s t : State, s.phase = .busy → step s = .next t → (∀ rest, s.hostQueue ≠ .hardReset :: rest) →
    t.strm = s.strm ∧ t.strmLen = s.strmLen ∧ t.cfgOb = s.cfgOb ∧ t.cfgLb = s.cfgLb

/-- The output is append-only (R135): a step keeps every byte of it in place, unless the step is an accepted `START` or
a hardware reset; in particular the bytes stay after the call has ended. The form of `START` is the spec's decision D6
(log entry 6), and that a reset empties the output is its decision D9 (log entry 8). -/
def Obligations.OutputIsAppendOnly : Prop :=
  ∀ s t : State, step s = .next t →
    s.out <+: t.out ∨
    (t.out = [] ∧ s.phase ≠ .busy ∧ ∃ w rest, s.hostQueue = .writeReg .ctrl w :: rest ∧ w % 2 = 1) ∨
    (t.out = [] ∧ ∃ rest, s.hostQueue = .hardReset :: rest)

/-- The phases: a call starts only by an accepted `START`, ends only in a step of the core, and nothing but a hardware
reset leads to `IDLE`; result and error position do not change before the call ends. This handshake is the spec's
decision D6 (log entry 6), what a hardware reset does is its decision D9 (log entries 8 and 18), and that the core moves
on an empty list or on `pass` is the model's schedule (log entry 15). -/
def Obligations.PhaseChangesOnlyAsTheHandshakeSays : Prop :=
  ∀ s t : State, step s = .next t →
    (s.phase ≠ .busy → t.phase = .busy →
      ∃ w rest, s.hostQueue = .writeReg .ctrl w :: rest ∧ w % 2 = 1) ∧
    (s.phase = .busy → t.phase = .done → s.hostQueue = [] ∨ ∃ rest, s.hostQueue = .pass :: rest) ∧
    (s.phase = .idle → t.phase ≠ .done) ∧
    (s.phase ≠ .idle → t.phase = .idle → ∃ rest, s.hostQueue = .hardReset :: rest) ∧
    (s.phase = .busy → t.phase = .busy → t.result = s.result ∧ t.errPos = s.errPos)
end

