-- ==== Sys2Proof/Laws/Decode.lean ====
section
/-! SUPPORT. What the decoder and the encoder do, said once. -/

namespace Sys2Proof

theorem readBits_nil (cls : Symbol → SymClass) : readBits cls [] = 0 := rfl

theorem readBits_snoc (cls : Symbol → SymClass) (syms : List Symbol) (sym : Symbol) :
    readBits cls (syms ++ [sym]) = 2 * readBits cls syms + bit cls sym := by
  simp [readBits, List.foldl_append]

theorem bit_le_one (cls : Symbol → SymClass) (sym : Symbol) : bit cls sym ≤ 1 := by
  rw [bit]; split <;> omega

/-- Reading on from an accumulated value (R82). -/
theorem readBits_foldl (cls : Symbol → SymClass) (syms : List Symbol) (v : Nat) :
    syms.foldl (fun v sym => 2 * v + bit cls sym) v = v * 2 ^ syms.length + readBits cls syms := by
  induction syms generalizing v with
  | nil => simp [readBits]
  | cons sym rest ih =>
    have h : readBits cls (sym :: rest) = (2 * 0 + bit cls sym) * 2 ^ rest.length + readBits cls rest := ih _
    rw [List.foldl_cons, ih, h, List.length_cons, pow_succ]
    ring

theorem readBits_cons (cls : Symbol → SymClass) (sym : Symbol) (rest : List Symbol) :
    readBits cls (sym :: rest) = bit cls sym * 2 ^ rest.length + readBits cls rest := by
  rw [readBits, List.foldl_cons, readBits_foldl]; simp

theorem readBits_lt (cls : Symbol → SymClass) (syms : List Symbol) : readBits cls syms < 2 ^ syms.length := by
  induction syms with
  | nil => simp [readBits]
  | cons sym rest ih =>
    rw [readBits_cons, List.length_cons, pow_succ]
    have h1 := bit_le_one cls sym
    have h2 : bit cls sym * 2 ^ rest.length ≤ 1 * 2 ^ rest.length := Nat.mul_le_mul_right _ h1
    omega

/-- Everything the decoder can answer. -/
theorem decode_cons (cls : Symbol → SymClass) (ob lb : Nat) (flag : Symbol) (body : List Symbol) :
    decode cls ob lb (flag :: body) =
      if body.length < bodyLength ob lb (cls flag) then
        (match cls flag with
          | .s0 => .error .incompleteLiteral
          | _ => .error .incompleteBackReference)
      else
        (match cls flag with
          | .s0 => .ok (.lit (BitVec.ofNat 8 (readBits cls (body.take 8))), body.drop 8)
          | .s1 =>
            .ok (.bref (readBits cls (body.take ob)) (readBits cls ((body.drop ob).take lb)), body.drop (ob + lb))
          | .sX => .ok (.nopx, body)) := by
  rw [decode]
  cases cls flag <;> rfl

/-- With enough symbols after the flag the decoder gives a token of the flag's class, within its field ranges, and the
symbols after its body. -/
theorem decode_complete {cls : Symbol → SymClass} {ob lb : Nat} {flag : Symbol} {body : List Symbol}
    (h : bodyLength ob lb (cls flag) ≤ body.length) :
    ∃ i, decode cls ob lb (flag :: body) = .ok (i, body.drop (bodyLength ob lb (cls flag))) ∧
      i.flagClass = cls flag ∧ i.wellFormed ob lb = true := by
  rw [decode_cons, if_neg (by omega)]
  cases hk : cls flag <;> rw [hk] at h <;> simp only [bodyLength] at h ⊢
  · exact ⟨_, rfl, rfl, rfl⟩
  · refine ⟨_, rfl, rfl, ?_⟩
    have h1 := readBits_lt cls (body.take ob)
    have h2 := readBits_lt cls ((body.drop ob).take lb)
    rw [List.length_take, Nat.min_eq_left (by omega)] at h1
    rw [List.length_take, List.length_drop, Nat.min_eq_left (by omega)] at h2
    simp [Instr.wellFormed, h1, h2]
  · exact ⟨_, rfl, rfl, rfl⟩

/-- With too few symbols after the flag the decoder gives the error of the flag's class (R68). -/
theorem decode_cutShort {cls : Symbol → SymClass} {ob lb : Nat} {flag : Symbol} {body : List Symbol}
    (h : body.length < bodyLength ob lb (cls flag)) :
    (cls flag = .s0 ∧ decode cls ob lb (flag :: body) = .error .incompleteLiteral) ∨
    (cls flag = .s1 ∧ decode cls ob lb (flag :: body) = .error .incompleteBackReference) := by
  rw [decode_cons, if_pos h]
  cases hk : cls flag <;> rw [hk] at h <;> simp_all [bodyLength]

@[simp] theorem encodeField_length (v n : Nat) : (encodeField v n).length = n := by
  induction n with
  | zero => rfl
  | succ n ih => simp [encodeField, ih]

theorem bit_encoded (b : Bool) :
    bit Config.decided.cls (if b then oneSymbol else zeroSymbol) = b.toNat := by
  cases b <;> decide

/-- A field is read back as the value it was written for (R62, R63). -/
theorem readBits_encodeField (v n : Nat) : readBits Config.decided.cls (encodeField v n) = v % 2 ^ n := by
  induction n with
  | zero => simp [encodeField, readBits, Nat.mod_one]
  | succ n ih =>
    rw [encodeField, readBits_cons, bit_encoded, ih, encodeField_length, Nat.mod_pow_succ, Nat.toNat_testBit]
    ring

end Sys2Proof
end

