-- ==== Sys2Proof/Laws/State.lean ====
section
/-! SUPPORT. One lemma per field per update of the state, and per derived number (`ob`, `lb`, `n`, `window`), so that no
proof unfolds a record update. -/

namespace Sys2Proof.Machine

@[simp] theorem append_phase (b : Byte) (s : State) : (append b s).phase = s.phase := rfl
@[simp] theorem append_result (b : Byte) (s : State) : (append b s).result = s.result := rfl
@[simp] theorem append_pos (b : Byte) (s : State) : (append b s).pos = s.pos := rfl
@[simp] theorem append_errPos (b : Byte) (s : State) : (append b s).errPos = s.errPos := rfl
@[simp] theorem append_out (b : Byte) (s : State) : (append b s).out = s.out ++ [b] := rfl
@[simp] theorem append_win (b : Byte) (s : State) : (append b s).win = s.win ++ [b] := rfl
@[simp] theorem append_cfgOb (b : Byte) (s : State) : (append b s).cfgOb = s.cfgOb := rfl
@[simp] theorem append_cfgLb (b : Byte) (s : State) : (append b s).cfgLb = s.cfgLb := rfl
@[simp] theorem append_strmLen (b : Byte) (s : State) : (append b s).strmLen = s.strmLen := rfl
@[simp] theorem append_strm (b : Byte) (s : State) : (append b s).strm = s.strm := rfl
@[simp] theorem append_hostQueue (b : Byte) (s : State) : (append b s).hostQueue = s.hostQueue := rfl
@[simp] theorem append_hostSeen (b : Byte) (s : State) : (append b s).hostSeen = s.hostSeen := rfl
@[simp] theorem append_ob (b : Byte) (s : State) : (append b s).ob = s.ob := rfl
@[simp] theorem append_lb (b : Byte) (s : State) : (append b s).lb = s.lb := rfl
@[simp] theorem append_n (b : Byte) (s : State) : (append b s).n = s.n := rfl
@[simp] theorem append_window (b : Byte) (s : State) : (append b s).window = s.window := rfl

@[simp] theorem trim_phase (s : State) : (trim s).phase = s.phase := rfl
@[simp] theorem trim_result (s : State) : (trim s).result = s.result := rfl
@[simp] theorem trim_pos (s : State) : (trim s).pos = s.pos := rfl
@[simp] theorem trim_errPos (s : State) : (trim s).errPos = s.errPos := rfl
@[simp] theorem trim_out (s : State) : (trim s).out = s.out := rfl
@[simp] theorem trim_win (s : State) : (trim s).win = dropWhileLonger s.window s.win := rfl
@[simp] theorem trim_cfgOb (s : State) : (trim s).cfgOb = s.cfgOb := rfl
@[simp] theorem trim_cfgLb (s : State) : (trim s).cfgLb = s.cfgLb := rfl
@[simp] theorem trim_strmLen (s : State) : (trim s).strmLen = s.strmLen := rfl
@[simp] theorem trim_strm (s : State) : (trim s).strm = s.strm := rfl
@[simp] theorem trim_hostQueue (s : State) : (trim s).hostQueue = s.hostQueue := rfl
@[simp] theorem trim_hostSeen (s : State) : (trim s).hostSeen = s.hostSeen := rfl
@[simp] theorem trim_ob (s : State) : (trim s).ob = s.ob := rfl
@[simp] theorem trim_lb (s : State) : (trim s).lb = s.lb := rfl
@[simp] theorem trim_n (s : State) : (trim s).n = s.n := rfl
@[simp] theorem trim_window (s : State) : (trim s).window = s.window := rfl

@[simp] theorem takeFlag_phase (s : State) : (takeFlag s).phase = s.phase := rfl
@[simp] theorem takeFlag_result (s : State) : (takeFlag s).result = s.result := rfl
@[simp] theorem takeFlag_pos (s : State) : (takeFlag s).pos = s.pos + 1 := rfl
@[simp] theorem takeFlag_errPos (s : State) : (takeFlag s).errPos = s.errPos := rfl
@[simp] theorem takeFlag_out (s : State) : (takeFlag s).out = s.out := rfl
@[simp] theorem takeFlag_win (s : State) : (takeFlag s).win = s.win := rfl
@[simp] theorem takeFlag_cfgOb (s : State) : (takeFlag s).cfgOb = s.cfgOb := rfl
@[simp] theorem takeFlag_cfgLb (s : State) : (takeFlag s).cfgLb = s.cfgLb := rfl
@[simp] theorem takeFlag_strmLen (s : State) : (takeFlag s).strmLen = s.strmLen := rfl
@[simp] theorem takeFlag_strm (s : State) : (takeFlag s).strm = s.strm := rfl
@[simp] theorem takeFlag_hostQueue (s : State) : (takeFlag s).hostQueue = s.hostQueue := rfl
@[simp] theorem takeFlag_hostSeen (s : State) : (takeFlag s).hostSeen = s.hostSeen := rfl
@[simp] theorem takeFlag_ob (s : State) : (takeFlag s).ob = s.ob := rfl
@[simp] theorem takeFlag_lb (s : State) : (takeFlag s).lb = s.lb := rfl
@[simp] theorem takeFlag_n (s : State) : (takeFlag s).n = s.n := rfl
@[simp] theorem takeFlag_window (s : State) : (takeFlag s).window = s.window := rfl

@[simp] theorem advance_phase (k : Nat) (s : State) : (advance k s).phase = s.phase := rfl
@[simp] theorem advance_result (k : Nat) (s : State) : (advance k s).result = s.result := rfl
@[simp] theorem advance_pos (k : Nat) (s : State) : (advance k s).pos = s.pos + k := rfl
@[simp] theorem advance_errPos (k : Nat) (s : State) : (advance k s).errPos = s.errPos := rfl
@[simp] theorem advance_out (k : Nat) (s : State) : (advance k s).out = s.out := rfl
@[simp] theorem advance_win (k : Nat) (s : State) : (advance k s).win = s.win := rfl
@[simp] theorem advance_cfgOb (k : Nat) (s : State) : (advance k s).cfgOb = s.cfgOb := rfl
@[simp] theorem advance_cfgLb (k : Nat) (s : State) : (advance k s).cfgLb = s.cfgLb := rfl
@[simp] theorem advance_strmLen (k : Nat) (s : State) : (advance k s).strmLen = s.strmLen := rfl
@[simp] theorem advance_strm (k : Nat) (s : State) : (advance k s).strm = s.strm := rfl
@[simp] theorem advance_hostQueue (k : Nat) (s : State) : (advance k s).hostQueue = s.hostQueue := rfl
@[simp] theorem advance_hostSeen (k : Nat) (s : State) : (advance k s).hostSeen = s.hostSeen := rfl
@[simp] theorem advance_ob (k : Nat) (s : State) : (advance k s).ob = s.ob := rfl
@[simp] theorem advance_lb (k : Nat) (s : State) : (advance k s).lb = s.lb := rfl
@[simp] theorem advance_n (k : Nat) (s : State) : (advance k s).n = s.n := rfl
@[simp] theorem advance_window (k : Nat) (s : State) : (advance k s).window = s.window := rfl

@[simp] theorem raiseError_phase (e : Result) (p : Nat) (s : State) : (raiseError e p s).phase = .done := rfl
@[simp] theorem raiseError_result (e : Result) (p : Nat) (s : State) : (raiseError e p s).result = e := rfl
@[simp] theorem raiseError_pos (e : Result) (p : Nat) (s : State) : (raiseError e p s).pos = s.pos := rfl
@[simp] theorem raiseError_errPos (e : Result) (p : Nat) (s : State) : (raiseError e p s).errPos = p := rfl
@[simp] theorem raiseError_out (e : Result) (p : Nat) (s : State) : (raiseError e p s).out = s.out := rfl
@[simp] theorem raiseError_win (e : Result) (p : Nat) (s : State) : (raiseError e p s).win = s.win := rfl
@[simp] theorem raiseError_cfgOb (e : Result) (p : Nat) (s : State) : (raiseError e p s).cfgOb = s.cfgOb := rfl
@[simp] theorem raiseError_cfgLb (e : Result) (p : Nat) (s : State) : (raiseError e p s).cfgLb = s.cfgLb := rfl
@[simp] theorem raiseError_strmLen (e : Result) (p : Nat) (s : State) : (raiseError e p s).strmLen = s.strmLen := rfl
@[simp] theorem raiseError_strm (e : Result) (p : Nat) (s : State) : (raiseError e p s).strm = s.strm := rfl
@[simp] theorem raiseError_hostQueue (e : Result) (p : Nat) (s : State) : (raiseError e p s).hostQueue = s.hostQueue := rfl
@[simp] theorem raiseError_hostSeen (e : Result) (p : Nat) (s : State) : (raiseError e p s).hostSeen = s.hostSeen := rfl
@[simp] theorem raiseError_ob (e : Result) (p : Nat) (s : State) : (raiseError e p s).ob = s.ob := rfl
@[simp] theorem raiseError_lb (e : Result) (p : Nat) (s : State) : (raiseError e p s).lb = s.lb := rfl
@[simp] theorem raiseError_n (e : Result) (p : Nat) (s : State) : (raiseError e p s).n = s.n := rfl
@[simp] theorem raiseError_window (e : Result) (p : Nat) (s : State) : (raiseError e p s).window = s.window := rfl

@[simp] theorem haltOk_phase (s : State) : (haltOk s).phase = .done := rfl
@[simp] theorem haltOk_result (s : State) : (haltOk s).result = .ok := rfl
@[simp] theorem haltOk_pos (s : State) : (haltOk s).pos = s.pos := rfl
@[simp] theorem haltOk_errPos (s : State) : (haltOk s).errPos = s.errPos := rfl
@[simp] theorem haltOk_out (s : State) : (haltOk s).out = s.out := rfl
@[simp] theorem haltOk_win (s : State) : (haltOk s).win = s.win := rfl
@[simp] theorem haltOk_cfgOb (s : State) : (haltOk s).cfgOb = s.cfgOb := rfl
@[simp] theorem haltOk_cfgLb (s : State) : (haltOk s).cfgLb = s.cfgLb := rfl
@[simp] theorem haltOk_strmLen (s : State) : (haltOk s).strmLen = s.strmLen := rfl
@[simp] theorem haltOk_strm (s : State) : (haltOk s).strm = s.strm := rfl
@[simp] theorem haltOk_hostQueue (s : State) : (haltOk s).hostQueue = s.hostQueue := rfl
@[simp] theorem haltOk_hostSeen (s : State) : (haltOk s).hostSeen = s.hostSeen := rfl
@[simp] theorem haltOk_ob (s : State) : (haltOk s).ob = s.ob := rfl
@[simp] theorem haltOk_lb (s : State) : (haltOk s).lb = s.lb := rfl
@[simp] theorem haltOk_n (s : State) : (haltOk s).n = s.n := rfl
@[simp] theorem haltOk_window (s : State) : (haltOk s).window = s.window := rfl

@[simp] theorem startCall_phase (s : State) : (startCall s).phase = .busy := rfl
@[simp] theorem startCall_result (s : State) : (startCall s).result = .ok := rfl
@[simp] theorem startCall_pos (s : State) : (startCall s).pos = 0 := rfl
@[simp] theorem startCall_errPos (s : State) : (startCall s).errPos = 0 := rfl
@[simp] theorem startCall_out (s : State) : (startCall s).out = [] := rfl
@[simp] theorem startCall_win (s : State) : (startCall s).win = [] := rfl
@[simp] theorem startCall_cfgOb (s : State) : (startCall s).cfgOb = s.cfgOb := rfl
@[simp] theorem startCall_cfgLb (s : State) : (startCall s).cfgLb = s.cfgLb := rfl
@[simp] theorem startCall_strmLen (s : State) : (startCall s).strmLen = s.strmLen := rfl
@[simp] theorem startCall_strm (s : State) : (startCall s).strm = s.strm := rfl
@[simp] theorem startCall_hostQueue (s : State) : (startCall s).hostQueue = s.hostQueue := rfl
@[simp] theorem startCall_hostSeen (s : State) : (startCall s).hostSeen = s.hostSeen := rfl
@[simp] theorem startCall_ob (s : State) : (startCall s).ob = s.ob := rfl
@[simp] theorem startCall_lb (s : State) : (startCall s).lb = s.lb := rfl
@[simp] theorem startCall_n (s : State) : (startCall s).n = s.n := rfl
@[simp] theorem startCall_window (s : State) : (startCall s).window = s.window := rfl

@[simp] theorem hardReset_phase (s : State) : (hardReset s).phase = State.reset.phase := rfl
@[simp] theorem hardReset_result (s : State) : (hardReset s).result = State.reset.result := rfl
@[simp] theorem hardReset_pos (s : State) : (hardReset s).pos = State.reset.pos := rfl
@[simp] theorem hardReset_errPos (s : State) : (hardReset s).errPos = State.reset.errPos := rfl
@[simp] theorem hardReset_out (s : State) : (hardReset s).out = State.reset.out := rfl
@[simp] theorem hardReset_win (s : State) : (hardReset s).win = State.reset.win := rfl
@[simp] theorem hardReset_cfgOb (s : State) : (hardReset s).cfgOb = State.reset.cfgOb := rfl
@[simp] theorem hardReset_cfgLb (s : State) : (hardReset s).cfgLb = State.reset.cfgLb := rfl
@[simp] theorem hardReset_strmLen (s : State) : (hardReset s).strmLen = State.reset.strmLen := rfl
@[simp] theorem hardReset_strm (s : State) : (hardReset s).strm = State.reset.strm := rfl
@[simp] theorem hardReset_hostQueue (s : State) : (hardReset s).hostQueue = s.hostQueue := rfl
@[simp] theorem hardReset_hostSeen (s : State) : (hardReset s).hostSeen = s.hostSeen := rfl

@[simp] theorem reply_phase (r : HostReply) (s : State) : (reply r s).phase = s.phase := rfl
@[simp] theorem reply_result (r : HostReply) (s : State) : (reply r s).result = s.result := rfl
@[simp] theorem reply_pos (r : HostReply) (s : State) : (reply r s).pos = s.pos := rfl
@[simp] theorem reply_errPos (r : HostReply) (s : State) : (reply r s).errPos = s.errPos := rfl
@[simp] theorem reply_out (r : HostReply) (s : State) : (reply r s).out = s.out := rfl
@[simp] theorem reply_win (r : HostReply) (s : State) : (reply r s).win = s.win := rfl
@[simp] theorem reply_cfgOb (r : HostReply) (s : State) : (reply r s).cfgOb = s.cfgOb := rfl
@[simp] theorem reply_cfgLb (r : HostReply) (s : State) : (reply r s).cfgLb = s.cfgLb := rfl
@[simp] theorem reply_strmLen (r : HostReply) (s : State) : (reply r s).strmLen = s.strmLen := rfl
@[simp] theorem reply_strm (r : HostReply) (s : State) : (reply r s).strm = s.strm := rfl
@[simp] theorem reply_hostQueue (r : HostReply) (s : State) : (reply r s).hostQueue = s.hostQueue := rfl
@[simp] theorem reply_hostSeen (r : HostReply) (s : State) : (reply r s).hostSeen = s.hostSeen ++ [r] := rfl
@[simp] theorem reply_ob (r : HostReply) (s : State) : (reply r s).ob = s.ob := rfl
@[simp] theorem reply_lb (r : HostReply) (s : State) : (reply r s).lb = s.lb := rfl
@[simp] theorem reply_n (r : HostReply) (s : State) : (reply r s).n = s.n := rfl
@[simp] theorem reply_window (r : HostReply) (s : State) : (reply r s).window = s.window := rfl

@[simp] theorem replyThen_phase (r : HostReply) (more : List HostOp) (s : State) :
    (replyThen r more s).phase = s.phase := rfl
@[simp] theorem replyThen_result (r : HostReply) (more : List HostOp) (s : State) :
    (replyThen r more s).result = s.result := rfl
@[simp] theorem replyThen_pos (r : HostReply) (more : List HostOp) (s : State) :
    (replyThen r more s).pos = s.pos := rfl
@[simp] theorem replyThen_errPos (r : HostReply) (more : List HostOp) (s : State) :
    (replyThen r more s).errPos = s.errPos := rfl
@[simp] theorem replyThen_out (r : HostReply) (more : List HostOp) (s : State) :
    (replyThen r more s).out = s.out := rfl
@[simp] theorem replyThen_win (r : HostReply) (more : List HostOp) (s : State) :
    (replyThen r more s).win = s.win := rfl
@[simp] theorem replyThen_cfgOb (r : HostReply) (more : List HostOp) (s : State) :
    (replyThen r more s).cfgOb = s.cfgOb := rfl
@[simp] theorem replyThen_cfgLb (r : HostReply) (more : List HostOp) (s : State) :
    (replyThen r more s).cfgLb = s.cfgLb := rfl
@[simp] theorem replyThen_strmLen (r : HostReply) (more : List HostOp) (s : State) :
    (replyThen r more s).strmLen = s.strmLen := rfl
@[simp] theorem replyThen_strm (r : HostReply) (more : List HostOp) (s : State) :
    (replyThen r more s).strm = s.strm := rfl
@[simp] theorem replyThen_ob (r : HostReply) (more : List HostOp) (s : State) :
    (replyThen r more s).ob = s.ob := rfl
@[simp] theorem replyThen_lb (r : HostReply) (more : List HostOp) (s : State) :
    (replyThen r more s).lb = s.lb := rfl
@[simp] theorem replyThen_n (r : HostReply) (more : List HostOp) (s : State) :
    (replyThen r more s).n = s.n := rfl
@[simp] theorem replyThen_window (r : HostReply) (more : List HostOp) (s : State) :
    (replyThen r more s).window = s.window := rfl
@[simp] theorem replyThen_hostQueue (r : HostReply) (more : List HostOp) (s : State) :
    (replyThen r more s).hostQueue = more ++ s.hostQueue := rfl
@[simp] theorem replyThen_hostSeen (r : HostReply) (more : List HostOp) (s : State) :
    (replyThen r more s).hostSeen = s.hostSeen ++ [r] := rfl

@[simp] theorem raiseIncompleteLiteral_eq (s : State) :
    raiseIncompleteLiteral s = raiseError .incLit s.pos s := rfl
@[simp] theorem raiseIncompleteBackReference_eq (s : State) :
    raiseIncompleteBackReference s = raiseError .incBref s.pos s := rfl
@[simp] theorem raiseUnexpectedEndOfStream_eq (s : State) :
    raiseUnexpectedEndOfStream s = raiseError .eos s.pos s := rfl

theorem State.window_pos (s : State) : 0 < s.window := Nat.two_pow_pos _

end Sys2Proof.Machine
end

