-- ==== Sys2Proof/Laws/Ops.lean ====
section
/-! SUPPORT. What the shared operations do, said once: the stream's memory, the window's bound, the copy loop, and the
end-of-stream test. -/

namespace Sys2Proof.Machine

/-! ### The stream's memory -/

theorem Memory.read_write (m : Memory) (a b : Nat) (v : Symbol) :
    Memory.read (Memory.write m a v) b = if b = a then some v else Memory.read m b := by
  induction m with
  | nil => grind [Memory.write, Memory.read]
  | cons c rest ih => grind [Memory.write, Memory.read]

theorem Memory.mem_write {m : Memory} {a : Nat} {v : Symbol} {c : Nat × Symbol}
    (h : c ∈ Memory.write m a v) : c = (a, v) ∨ c ∈ m := by
  induction m with
  | nil => simpa [Memory.write] using h
  | cons d rest ih =>
    simp only [Memory.write] at h
    split at h
    · simpa using h
    · split at h
      · rcases List.mem_cons.1 h with h | h
        · exact .inl h
        · exact .inr (List.mem_cons_of_mem _ h)
      · rcases List.mem_cons.1 h with h | h
        · exact .inr (h ▸ List.mem_cons_self)
        · exact (ih h).imp id (List.mem_cons_of_mem _)

theorem Memory.write_keeps_wf {m : Memory} (a : Nat) (v : Symbol) (h : Memory.wf m) :
    Memory.wf (Memory.write m a v) := by
  induction m with
  | nil => simp [Memory.write, Memory.wf]
  | cons c rest ih =>
    obtain ⟨hc, hrest⟩ := List.pairwise_cons.1 h
    simp only [Memory.write]
    split
    · refine List.pairwise_cons.2 ⟨fun d hd => ?_, h⟩
      rcases List.mem_cons.1 hd with rfl | hd
      · assumption
      · exact Nat.lt_trans ‹_› (hc d hd)
    · split
      · subst a; exact List.pairwise_cons.2 ⟨hc, hrest⟩
      · refine List.pairwise_cons.2 ⟨fun d hd => ?_, ih hrest⟩
        rcases Memory.mem_write hd with rfl | hd
        · simp; omega
        · exact hc d hd

theorem Memory.read_writeRun (vs : List Symbol) (m : Memory) (a b : Nat) :
    Memory.read (Memory.writeRun m a vs) b =
      if a ≤ b ∧ b < a + vs.length then vs[b - a]? else Memory.read m b := by
  induction vs generalizing m a with
  | nil => simp [Memory.writeRun]
  | cons v vs ih =>
    rw [Memory.writeRun, ih, Memory.read_write]
    by_cases h1 : b = a
    · subst h1; simp
    · by_cases h2 : a + 1 ≤ b ∧ b < a + 1 + vs.length
      · rw [if_pos h2, if_pos (by simp; omega), show b - a = (b - (a + 1)) + 1 by omega]
        simp
      · rw [if_neg h2, if_neg h1, if_neg (by simp; omega)]

theorem Memory.writeRun_keeps_wf (vs : List Symbol) {m : Memory} (a : Nat) (h : Memory.wf m) :
    Memory.wf (Memory.writeRun m a vs) := by
  induction vs generalizing m a with
  | nil => exact h
  | cons v vs ih => exact ih _ (Memory.write_keeps_wf _ _ h)

/-- A run of symbols is read exactly where each symbol is. -/
theorem Memory.readRun_eq_some {m : Memory} {a k : Nat} {vs : List Symbol} :
    Memory.readRun m a k = some vs ↔
      vs.length = k ∧ ∀ j, j < k → Memory.read m (a + j) = vs[j]? := by
  induction k generalizing a vs with
  | zero => cases vs <;> simp [Memory.readRun]
  | succ k ih =>
    simp only [Memory.readRun]
    constructor
    · intro h
      split at h
      · next v ws hv hws =>
        cases h
        obtain ⟨hl, hr⟩ := ih.1 hws
        refine ⟨by simp [hl], fun j hj => ?_⟩
        cases j with
        | zero => simpa using hv
        | succ j => rw [show a + (j + 1) = a + 1 + j by omega]; simpa using hr j (by omega)
      · cases h
    · rintro ⟨hl, hr⟩
      cases vs with
      | nil => simp at hl
      | cons v vs =>
        have h0 : Memory.read m a = some v := by simpa using hr 0 (by omega)
        have hs : Memory.readRun m (a + 1) k = some vs := by
          refine ih.2 ⟨by simpa using hl, fun j hj => ?_⟩
          have := hr (j + 1) (by omega)
          rw [show a + (j + 1) = a + 1 + j by omega] at this
          simpa using this
        rw [h0, hs]

/-- Where every symbol of a run is loaded, the run can be read. -/
theorem Memory.readRun_isSome {m : Memory} {a k : Nat}
    (h : ∀ j, j < k → (Memory.read m (a + j)).isSome = true) : ∃ vs, Memory.readRun m a k = some vs := by
  induction k generalizing a with
  | zero => exact ⟨[], rfl⟩
  | succ k ih =>
    obtain ⟨v, hv⟩ := Option.isSome_iff_exists.1 (h 0 (by omega))
    obtain ⟨vs, hvs⟩ := ih (a := a + 1) (fun j hj => by
      have := h (j + 1) (by omega)
      rwa [show a + (j + 1) = a + 1 + j by omega] at this)
    exact ⟨v :: vs, by rw [Memory.readRun, show Memory.read m a = some v by simpa using hv, hvs]⟩

theorem Memory.readRun_congr {m m' : Memory} {a k : Nat}
    (h : ∀ j, j < k → Memory.read m' (a + j) = Memory.read m (a + j)) :
    Memory.readRun m' a k = Memory.readRun m a k := by
  induction k generalizing a with
  | zero => rfl
  | succ k ih =>
    have h0 := h 0 (by omega)
    simp only [Nat.add_zero] at h0
    rw [Memory.readRun, Memory.readRun, h0, ih (fun j hj => by
      have := h (j + 1) (by omega)
      rwa [show a + (j + 1) = a + 1 + j by omega] at this)]

/-! ### The window's bound -/

@[simp] theorem keepNewest_length (w : Nat) (l : List Byte) : (keepNewest w l).length = min l.length w := by
  simp [keepNewest]; omega

theorem keepNewest_of_le {w : Nat} {l : List Byte} (h : l.length ≤ w) : keepNewest w l = l := by
  simp [keepNewest, Nat.sub_eq_zero_of_le h]

theorem keepNewest_suffix (w : Nat) (l : List Byte) : keepNewest w l <:+ l := List.drop_suffix _ _

/-- Trimming first and trimming after an append is trimming after it. -/
theorem keepNewest_append (w : Nat) (l e : List Byte) :
    keepNewest w (keepNewest w l ++ e) = keepNewest w (l ++ e) := by
  simp only [keepNewest, List.length_append, List.length_drop, List.drop_append, List.drop_drop]
  congr 1
  · congr 1; omega
  · congr 1; omega

theorem dropWhileLonger_eq (w : Nat) (l : List Byte) : dropWhileLonger w l = keepNewest w l := by
  induction l with
  | nil => simp [dropWhileLonger, keepNewest]
  | cons b rest ih =>
    rw [dropWhileLonger]
    split
    · next h =>
      rw [ih, keepNewest, keepNewest, show (b :: rest).length - w = (rest.length - w) + 1 by
        simp at h ⊢; omega]
      rfl
    · exact (keepNewest_of_le (by omega)).symm

/-- `Trim` in closed form. -/
theorem trim_eq (s : State) : trim s = { s with win := keepNewest s.window s.win } := by
  rw [trim, dropWhileLonger_eq]

theorem trim_of_le {s : State} (h : s.win.length ≤ s.window) : trim s = s := by
  rw [trim_eq, keepNewest_of_le h]

/-! ### The copy -/

/-- The bytes a copy emits from a window, as a list (R116). -/
def copied (src : Nat) : Nat → List Byte → List Byte
  | 0, _ => []
  | k + 1, w =>
    match w[src]? with
    | none => []
    | some b => b :: copied (src + 1) k (w ++ [b])

/-- Everything the copy loop can do: it appends the copied bytes to output and window. -/
theorem copyLoop_eq (src k : Nat) (s : State) :
    copyLoop src k s = { s with out := s.out ++ copied src k s.win, win := s.win ++ copied src k s.win } := by
  induction k generalizing src s with
  | zero => simp [copyLoop, copied]
  | succ k ih =>
    cases h : s.win[src]? with
    | none => simp [copyLoop, copied, h]
    | some b => simp [copyLoop, copied, h, ih, append]

theorem copied_length_le (src k : Nat) (w : List Byte) : (copied src k w).length ≤ k := by
  induction k generalizing src w with
  | zero => simp [copied]
  | succ k ih =>
    simp only [copied]
    split
    · simp
    · simpa using ih _ _

theorem copied_at_end (k : Nat) (w : List Byte) : copied w.length k w = [] := by
  cases k <;> simp [copied]

/-- A copy at distance `1 ≤ offset` never stops early, and its bytes are periodic (R119, R120). -/
theorem copied_periodic {w : List Byte} {offset : Nat} (h1 : 1 ≤ offset) (h2 : offset ≤ w.length) (k : Nat) :
    copied (w.length - offset) k w = periodicCopy w offset k := by
  -- the loop after `j` iterations, with the bytes emitted so far
  have key : ∀ k j, copied (w.length - offset + j) k (w ++ periodicCopy w offset j) =
      (List.range k).map (fun i => w.getD (w.length - offset + (j + i) % offset) 0) := by
    intro k
    induction k with
    | zero => intro j; simp [copied]
    | succ k ih =>
      intro j
      have hget : (w ++ periodicCopy w offset j)[w.length - offset + j]? =
          some (w.getD (w.length - offset + j % offset) 0) := by
        have hm : j % offset < offset := Nat.mod_lt _ h1
        by_cases hj : j < offset
        · rw [List.getElem?_append_left (by omega), Nat.mod_eq_of_lt hj,
            List.getD_eq_getElem?_getD, List.getElem?_eq_getElem (by omega)]
          rfl
        · rw [List.getElem?_append_right (by omega), periodicCopy, List.getElem?_map,
            List.getElem?_range (by omega)]
          simp only [Option.map_some]
          rw [show w.length - offset + j - w.length = j - offset by omega,
            ← Nat.mod_eq_sub_mod (by omega)]
      rw [copied, hget]
      have hsnoc : w ++ periodicCopy w offset j ++ [w.getD (w.length - offset + j % offset) 0] =
          w ++ periodicCopy w offset (j + 1) := by
        simp [periodicCopy, List.range_succ]
      simp only [hsnoc]
      rw [Nat.add_assoc, ih (j + 1), List.range_succ_eq_map]
      simp only [List.map_cons, List.map_map, Nat.add_zero]
      congr 1
      apply List.map_congr_left
      intro i _
      simp only [Function.comp]
      rw [show j + 1 + i = j + (i + 1) by omega]
  simpa [periodicCopy] using key k 0

@[simp] theorem periodicCopy_length (w : List Byte) (offset k : Nat) : (periodicCopy w offset k).length = k := by
  simp [periodicCopy]

/-! ### The end of the stream -/

theorem endOfStreamTest_eq (s : State) :
    endOfStreamTest s = if s.phase = .busy ∧ s.n ≤ s.pos then haltOk s else s := rfl

theorem endOfStreamTest_of_ne_busy {s : State} (h : s.phase ≠ .busy) : endOfStreamTest s = s := by
  simp [endOfStreamTest, h]

/-- The end-of-stream test can only end a running call (R86). -/
theorem endOfStreamTest_cases (s : State) :
    (endOfStreamTest s = haltOk s ∧ s.phase = .busy ∧ s.n ≤ s.pos) ∨
    (endOfStreamTest s = s ∧ (s.phase = .busy → s.pos < s.n)) := by
  by_cases h : s.phase = .busy ∧ s.n ≤ s.pos
  · exact .inl ⟨by rw [endOfStreamTest, if_pos h], h⟩
  · exact .inr ⟨by rw [endOfStreamTest, if_neg h], fun hb => by simp [hb] at h; omega⟩

end Sys2Proof.Machine
end

