-- ==== Sys2Proof/Laws/Exec.lean ====
section
/-! SUPPORT. Everything a token can do, said once: a complete token appends the bytes `emitted` gives and trims; a token
cut short raises the error of its class. Later proofs cite these and unfold no meaning. -/

namespace Sys2Proof.Machine

/-- The bytes a complete token emits, given the window before it. -/
def emitted (i : Instr) (w : List Byte) : List Byte :=
  match i with
  | .lit code => if printable code then [code] else []
  | .bref offset length =>
    if offset ≤ w.length ∧ length ≠ 0 then copied (w.length - offset) length w else []
  | .nopx => []

/-- The window after a complete token whose emitted bytes are `e`; `NOPX` does not trim (R87). -/
def windowAfter (i : Instr) (bound : Nat) (w e : List Byte) : List Byte :=
  match i with
  | .nopx => w
  | _ => keepNewest bound (w ++ e)

/-- The state after a complete token. -/
def afterComplete (i : Instr) (s : State) : State :=
  { s with
    pos := s.pos + tokenLength s.ob s.lb i.flagClass
    out := s.out ++ emitted i s.win
    win := windowAfter i s.window s.win (emitted i s.win) }

/-- The error of a token cut short; `NOPX` never is. -/
def cutShortError : Instr → Result
  | .lit _ => .incLit
  | .bref _ _ => .incBref
  | .nopx => .ok

/-- The state after a token cut short. -/
def afterCutShort (i : Instr) (s : State) : State :=
  { s with pos := s.pos + 1, result := cutShortError i, errPos := s.pos + 1, phase := .done }

theorem fits_iff {k : Nat} {s : State} : fits k s = true ↔ s.pos + k ≤ s.n := by simp [fits]

theorem brefValid_iff {offset length : Nat} {s : State} :
    brefValid offset length s = true ↔ offset ≤ s.win.length ∧ length ≠ 0 := by
  simp [brefValid]

theorem exec_complete {i : Instr} {s : State} (h : s.pos + tokenLength s.ob s.lb i.flagClass ≤ s.n) :
    exec i s = .next (afterComplete i s) := by
  cases i with
  | lit code =>
    have hf : fits 8 (takeFlag s) = true := by
      rw [fits_iff]; simp [tokenLength, bodyLength, Instr.flagClass] at h ⊢; omega
    simp only [exec, execLit, hf, if_true, trim_eq, afterComplete, tokenLength, bodyLength, Instr.flagClass,
      appendPrintable, emitted, windowAfter]
    split <;> simp [append, advance, takeFlag, State.window, State.ob, Nat.add_assoc]
  | bref offset length =>
    have hf : fits (s.ob + s.lb) (takeFlag s) = true := by
      rw [fits_iff]; simp [tokenLength, bodyLength, Instr.flagClass] at h ⊢; omega
    simp only [exec, execBref, hf, if_true, trim_eq, afterComplete, tokenLength, bodyLength, Instr.flagClass,
      copyBytes, brefValid_iff, emitted, windowAfter, copyStart, copyLoop_eq, advance_win, takeFlag_win]
    split <;> simp [advance, takeFlag, State.window, State.ob, Nat.add_assoc]
  | nopx =>
    simp [exec, execNopx, afterComplete, emitted, windowAfter, tokenLength, bodyLength, Instr.flagClass, takeFlag]

theorem exec_cutShort {i : Instr} {s : State} (h : s.n < s.pos + tokenLength s.ob s.lb i.flagClass)
    (hn : i ≠ .nopx) : exec i s = .next (afterCutShort i s) := by
  cases i with
  | lit code =>
    have hf : fits 8 (takeFlag s) = false := by
      rw [Bool.eq_false_iff, ne_eq, fits_iff]; simp [tokenLength, bodyLength, Instr.flagClass] at h ⊢; omega
    rw [exec, execLit, hf]; rfl
  | bref offset length =>
    have hf : fits (s.ob + s.lb) (takeFlag s) = false := by
      rw [Bool.eq_false_iff, ne_eq, fits_iff]; simp [tokenLength, bodyLength, Instr.flagClass] at h ⊢; omega
    rw [exec, execBref, hf]; rfl
  | nopx => exact absurd rfl hn

theorem exec_nopx (s : State) : exec .nopx s = .next (afterComplete .nopx s) := by
  simp [exec, execNopx, afterComplete, emitted, windowAfter, tokenLength, bodyLength, Instr.flagClass, takeFlag]

/-- Everything a token can do. -/
theorem exec_cases {i : Instr} {s t : State} (h : exec i s = .next t) :
    (t = afterComplete i s ∧ (s.pos + tokenLength s.ob s.lb i.flagClass ≤ s.n ∨ i = .nopx)) ∨
    (t = afterCutShort i s ∧ s.n < s.pos + tokenLength s.ob s.lb i.flagClass ∧ i ≠ .nopx) := by
  by_cases hc : s.pos + tokenLength s.ob s.lb i.flagClass ≤ s.n
  · rw [exec_complete hc] at h
    exact .inl ⟨by injection h with h; exact h.symm, .inl hc⟩
  · by_cases hn : i = .nopx
    · subst hn
      rw [exec_nopx] at h
      exact .inl ⟨by injection h with h; exact h.symm, .inr rfl⟩
    · rw [exec_cutShort (by omega) hn] at h
      exact .inr ⟨by injection h with h; exact h.symm, by omega, hn⟩

/-- No token faults and none is refused (R67). -/
theorem exec_next (i : Instr) (s : State) : ∃ t, exec i s = .next t := by
  by_cases hc : s.pos + tokenLength s.ob s.lb i.flagClass ≤ s.n
  · exact ⟨_, exec_complete hc⟩
  · by_cases hn : i = .nopx
    · subst hn; exact ⟨_, exec_nopx s⟩
    · exact ⟨_, exec_cutShort (by omega) hn⟩

@[simp] theorem afterComplete_pos (i : Instr) (s : State) :
    (afterComplete i s).pos = s.pos + tokenLength s.ob s.lb i.flagClass := rfl
@[simp] theorem afterComplete_phase (i : Instr) (s : State) : (afterComplete i s).phase = s.phase := rfl
@[simp] theorem afterComplete_result (i : Instr) (s : State) : (afterComplete i s).result = s.result := rfl
@[simp] theorem afterComplete_errPos (i : Instr) (s : State) : (afterComplete i s).errPos = s.errPos := rfl
@[simp] theorem afterComplete_n (i : Instr) (s : State) : (afterComplete i s).n = s.n := rfl
@[simp] theorem afterComplete_ob (i : Instr) (s : State) : (afterComplete i s).ob = s.ob := rfl
@[simp] theorem afterComplete_lb (i : Instr) (s : State) : (afterComplete i s).lb = s.lb := rfl
@[simp] theorem afterComplete_window (i : Instr) (s : State) : (afterComplete i s).window = s.window := rfl
@[simp] theorem afterComplete_strm (i : Instr) (s : State) : (afterComplete i s).strm = s.strm := rfl
@[simp] theorem afterComplete_hostQueue (i : Instr) (s : State) :
    (afterComplete i s).hostQueue = s.hostQueue := rfl
@[simp] theorem afterComplete_out (i : Instr) (s : State) :
    (afterComplete i s).out = s.out ++ emitted i s.win := rfl
@[simp] theorem afterComplete_win (i : Instr) (s : State) :
    (afterComplete i s).win = windowAfter i s.window s.win (emitted i s.win) := rfl

theorem tokenLength_pos (ob lb : Nat) (k : SymClass) : 1 ≤ tokenLength ob lb k := by simp [tokenLength]

/-- Within the window's bound every token's new window is the newest bytes of the old one and the emitted ones. -/
theorem windowAfter_eq {i : Instr} {bound : Nat} {w : List Byte} (h : w.length ≤ bound) :
    windowAfter i bound w (emitted i w) = keepNewest bound (w ++ emitted i w) := by
  cases i <;> simp [windowAfter, emitted, keepNewest_of_le h]

/-- The emitted bytes of a valid back-reference in closed form (R120), and of one at distance 0 (R119). -/
theorem emitted_bref {offset length : Nat} {w : List Byte} (h : offset ≤ w.length) (hl : length ≠ 0) :
    emitted (.bref offset length) w = if offset = 0 then [] else periodicCopy w offset length := by
  rw [emitted, if_pos ⟨h, hl⟩]
  split
  · next h0 => subst h0; exact copied_at_end _ _
  · exact copied_periodic (by omega) h _

theorem emitted_length_le {i : Instr} {ob lb : Nat} (hw : i.wellFormed ob lb = true) (w : List Byte) :
    (emitted i w).length ≤ tokenOutputBound lb := by
  cases i with
  | lit code => simp only [emitted, tokenOutputBound]; split <;> simp
  | bref offset length =>
    simp only [Instr.wellFormed, Bool.and_eq_true, decide_eq_true_eq] at hw
    simp only [emitted, tokenOutputBound]
    split
    · have := copied_length_le (w.length - offset) length w
      omega
    · simp
  | nopx => simp [emitted]

/-- Every emitted byte is printable where the window's bytes are (R137). -/
theorem emitted_printable {i : Instr} {w : List Byte} (h : AllPrintable w) : AllPrintable (emitted i w) := by
  cases i with
  | lit code => intro b hb; simp only [emitted] at hb; split at hb <;> simp_all
  | bref offset length =>
    have key : ∀ k src (w : List Byte), AllPrintable w → AllPrintable (copied src k w) := by
      intro k
      induction k with
      | zero => intro src w _ b hb; simp [copied] at hb
      | succ k ih =>
        intro src w hw
        cases hs : w[src]? with
        | none => intro b hb; simp [copied, hs] at hb
        | some c =>
          have hc : printable c = true := hw c (List.mem_of_getElem? hs)
          intro b hb
          simp only [copied, hs, List.mem_cons] at hb
          rcases hb with rfl | hb
          · exact hc
          · refine ih (src + 1) (w ++ [c]) (fun d hd => ?_) b hb
            rcases List.mem_append.1 hd with hd | hd
            · exact hw d hd
            · rw [List.mem_singleton.1 hd]; exact hc
    simp only [emitted]
    split
    · exact key _ _ _ h
    · intro b hb; simp at hb
  | nopx => intro b hb; simp [emitted] at hb

end Sys2Proof.Machine
end

