-- ==== Sys2Proof/Laws/Host.lean ====
section
/-! SUPPORT. The registers as the host sees them, said once: their widths, what narrowing does, and when it loses
nothing. -/

namespace Sys2Proof.Machine

/-- The width of a register that holds 0 to `m`, as R6 writes it. -/
theorem fieldWidth_eq_clog (m : Nat) : fieldWidth m = Nat.clog 2 (m + 1) := by
  rw [fieldWidth]
  split
  · next h => subst h; simp
  · next h =>
    refine Nat.le_antisymm ?_ (Nat.clog_le_of_le_pow Nat.lt_log2_self)
    exact (Nat.lt_clog_iff_pow_lt Nat.one_lt_two).2 (Nat.lt_succ_of_le (Nat.log2_self_le h))

/-- Every number up to `m` fits the width of its register. -/
theorem lt_two_pow_fieldWidth {v m : Nat} (h : v ≤ m) : v < 2 ^ fieldWidth m := by
  rw [fieldWidth]
  split
  · omega
  · exact Nat.lt_of_le_of_lt h Nat.lt_log2_self

/-- A number that fits a register is read back whole. -/
theorem narrow_of_lt {c : Config} {r : Reg} {w : Nat} (h : w < 2 ^ r.width c) : narrow c r w = w :=
  Nat.mod_eq_of_lt h

theorem narrow_lt (c : Config) (r : Reg) (w : Nat) : narrow c r w < 2 ^ r.width c :=
  Nat.mod_lt _ (Nat.two_pow_pos _)

@[simp] theorem narrow_ctrl (c : Config) (w : Nat) : narrow c .ctrl w = w % 2 := rfl

theorem statusWord_lt (s : State) : statusWord s < 2 ^ 5 := by
  rw [statusWord]
  cases s.phase <;> cases s.result <;> simp [resultCode]

@[simp] theorem regRead_status (c : Config) (s : State) : regRead c .status s = statusWord s :=
  narrow_of_lt (statusWord_lt s)

@[simp] theorem regRead_ctrl (c : Config) (s : State) : regRead c .ctrl s = 0 := rfl

/-- The host's list is no part of any register. -/
@[simp] theorem regRead_hostQueue (c : Config) (r : Reg) (s : State) (q : List HostOp) :
    regRead c r { s with hostQueue := q } = regRead c r s := by cases r <;> rfl

theorem configInRange_iff {c : Config} {s : State} :
    configInRange c s = true ↔ s.ob ≤ c.obMax ∧ s.lb ≤ c.lbMax ∧ s.n ≤ c.strmCap := by
  simp [configInRange, and_assoc]

/-- At the decided parameters no value is refused: every one that fits its register is legal (R21, R22, R23). -/
theorem narrow_decided_le (w : Nat) :
    narrow Config.decided .cfgOb w ≤ Config.decided.obMax ∧ narrow Config.decided .cfgLb w ≤ Config.decided.lbMax ∧
      narrow Config.decided .strmLen w ≤ Config.decided.strmCap := by
  have h1 := narrow_lt Config.decided .cfgOb w
  have h2 := narrow_lt Config.decided .cfgLb w
  have h3 := narrow_lt Config.decided .strmLen w
  rw [show Reg.width Config.decided .cfgOb = 5 by decide] at h1
  rw [show Reg.width Config.decided .cfgLb = 5 by decide] at h2
  rw [show Reg.width Config.decided .strmLen = 32 by decide] at h3
  refine ⟨Nat.le_of_lt_succ h1, Nat.le_of_lt_succ h2, Nat.le_of_lt_succ h3⟩

/-- The decided parameters respect what R6 asks of them. -/
theorem decided_wf : Config.decided.wf := by
  constructor <;> decide

/-- So do those of a platform of real bits (R42). -/
theorem realBits_wf : Config.realBits.wf := by
  constructor <;> decide

end Sys2Proof.Machine
end

