-- ==== Sys2Proof/Laws/PerInstr.lean ====
section
/-! SUPPORT. The statements made for every token, one lemma per constructor of `Instr`. -/

namespace Sys2Proof.Laws

/-- An encoded token is as long as its class says, at every pair of widths (R61). -/
def EncodeLength.Statement (i : Instr) : Prop :=
  ∀ ob lb : Nat, (encode ob lb i).length = tokenLength ob lb i.flagClass

theorem EncodeLength.lit (code : Byte) : EncodeLength.Statement (.lit code) := by
  intro ob lb; simp [encode, tokenLength, bodyLength, Instr.flagClass]

theorem EncodeLength.bref (offset length : Nat) : EncodeLength.Statement (.bref offset length) := by
  intro ob lb; simp [encode, tokenLength, bodyLength, Instr.flagClass]; omega

theorem EncodeLength.nopx : EncodeLength.Statement .nopx := by
  intro ob lb; simp [encode, tokenLength, bodyLength, Instr.flagClass]

end Sys2Proof.Laws
end

