-- ==== Sys2Proof/Laws/Step.lean ====
section
/-! SUPPORT. Everything one step of the core and one step of the machine can do, said once. -/

namespace Sys2Proof.Machine

/-- The symbols of a token are read exactly where they are loaded; a token cut short is read as its flag alone. -/
theorem tokenSymbols_eq (cls : Symbol → SymClass) (s : State) (flag : Symbol)
    (h : Memory.read s.strm s.pos = some flag) :
    tokenSymbols cls s =
      if s.pos + tokenLength s.ob s.lb (cls flag) ≤ s.n then
        Memory.readRun s.strm s.pos (tokenLength s.ob s.lb (cls flag))
      else some [flag] := by
  rw [tokenSymbols, h]
  simp only [fits_iff]

/-- Everything one step of the core can do (R89, R90). -/
theorem coreStep_spec (c : Config) (s : State) :
    (s.n ≤ s.pos ∧ coreStep c s = .next (noRoomForFlag c s)) ∨
    (s.pos < s.n ∧ coreStep c s = .fault .unloadedSymbol ∧
      ∃ a, s.pos ≤ a ∧ a < s.n ∧ Memory.read s.strm a = none ∧
        ∀ flag, Memory.read s.strm s.pos = some flag → a < s.pos + tokenLength s.ob s.lb (c.cls flag)) ∨
    (∃ flag i syms, s.pos < s.n ∧ Memory.read s.strm s.pos = some flag ∧ i.flagClass = c.cls flag ∧
      s.pos + tokenLength s.ob s.lb i.flagClass ≤ s.n ∧ i.wellFormed s.ob s.lb = true ∧
      Memory.readRun s.strm s.pos (tokenLength s.ob s.lb i.flagClass) = some syms ∧
      decode c.cls s.ob s.lb syms = .ok (i, []) ∧
      coreStep c s = finishToken c (.next (afterComplete i s))) ∨
    (∃ flag i, s.pos < s.n ∧ Memory.read s.strm s.pos = some flag ∧ i.flagClass = c.cls flag ∧ i ≠ .nopx ∧
      s.n < s.pos + tokenLength s.ob s.lb i.flagClass ∧ coreStep c s = .next (afterCutShort i s)) := by
  by_cases hroom : s.pos < s.n
  · have hf : fits 1 s = true := by rw [fits_iff]; omega
    right
    rw [coreStep, if_pos hf]
    cases hread : Memory.read s.strm s.pos with
    | none =>
      left
      refine ⟨hroom, ?_, s.pos, Nat.le_refl _, hroom, hread, fun f hf => nomatch hf⟩
      rw [tokenSymbols, hread]
    | some flag =>
      rw [tokenSymbols_eq _ _ _ hread]
      by_cases hfit : s.pos + tokenLength s.ob s.lb (c.cls flag) ≤ s.n
      · rw [if_pos hfit]
        cases hrun : Memory.readRun s.strm s.pos (tokenLength s.ob s.lb (c.cls flag)) with
        | none =>
          left
          refine ⟨hroom, rfl, ?_⟩
          by_contra hall
          push Not at hall
          obtain ⟨vs, hvs⟩ := Memory.readRun_isSome (m := s.strm) (a := s.pos)
            (k := tokenLength s.ob s.lb (c.cls flag))
            (fun j hj => Option.isSome_iff_ne_none.2 fun hn => by
              obtain ⟨f, hf, hle⟩ := hall (s.pos + j) (by omega) (by omega) hn
              cases hf; omega)
          rw [hvs] at hrun; cases hrun
        | some syms =>
          right; left
          obtain ⟨hl, hr⟩ := Memory.readRun_eq_some.1 hrun
          have h0 := hr 0 (tokenLength_pos _ _ _)
          simp only [Nat.add_zero, hread] at h0
          cases syms with
          | nil => simp at h0
          | cons f body =>
            have hfl : f = flag := by simpa using h0.symm
            subst hfl
            have hbody : body.length = bodyLength s.ob s.lb (c.cls f) := by
              simp [tokenLength] at hl; omega
            obtain ⟨i, hd, hk, hw⟩ := decode_complete (cls := c.cls) (ob := s.ob) (lb := s.lb)
              (flag := f) (body := body) (by omega)
            rw [← hbody, List.drop_length] at hd
            rw [← hk] at hfit hrun
            refine ⟨f, i, f :: body, hroom, rfl, hk, hfit, hw, hrun, hd, ?_⟩
            simp only [hd, runDecoded, exec_complete hfit]
      · rw [if_neg hfit]
        right; right
        have hb : ([] : List Symbol).length < bodyLength s.ob s.lb (c.cls flag) := by
          by_contra h
          exact hfit (by simp [tokenLength] at h ⊢; omega)
        rcases decode_cutShort hb with ⟨hk, hd⟩ | ⟨hk, hd⟩
        · exact ⟨flag, .lit 0, hroom, rfl, hk.symm, by simp, by rw [hk] at hfit; simpa [Instr.flagClass] using hfit,
            by simp only [hd]; rfl⟩
        · exact ⟨flag, .bref 0 0, hroom, rfl, hk.symm, by simp,
            by rw [hk] at hfit; simpa [Instr.flagClass] using hfit, by simp only [hd]; rfl⟩
  · left
    refine ⟨by omega, ?_⟩
    have hf : fits 1 s = false := by rw [Bool.eq_false_iff, ne_eq, fits_iff]; omega
    rw [coreStep, hf]; rfl

/-- At the unbounded output a completed token is followed by the end-of-stream test only. -/
@[simp] theorem finishToken_decided (s : State) :
    finishToken Config.decided (.next s) = .next (endOfStreamTest s) := rfl

/-- Whatever follows a completed token that is neither refused nor stopped is the end-of-stream test. -/
theorem finishToken_next {c : Config} {s t : State} (h : finishToken c (.next s) = .next t) :
    t = endOfStreamTest s := by
  simp only [finishToken] at h
  split at h
  · cases h
  · exact (Host.Outcome.next.inj h).symm

/-- Everything one step of the core can lead to, at every value of the parameters. -/
theorem coreStep_casesIn {c : Config} {s t : State} (h : coreStep c s = .next t) :
    (s.n ≤ s.pos ∧ t = noRoomForFlag c s) ∨
    (∃ flag i, s.pos < s.n ∧ Memory.read s.strm s.pos = some flag ∧ i.flagClass = c.cls flag ∧
      s.pos + tokenLength s.ob s.lb i.flagClass ≤ s.n ∧ i.wellFormed s.ob s.lb = true ∧
      t = endOfStreamTest (afterComplete i s)) ∨
    (∃ flag i, s.pos < s.n ∧ Memory.read s.strm s.pos = some flag ∧ i.flagClass = c.cls flag ∧
      i ≠ .nopx ∧ s.n < s.pos + tokenLength s.ob s.lb i.flagClass ∧ t = afterCutShort i s) := by
  rcases coreStep_spec c s with ⟨h1, h2⟩ | ⟨_, h2, _⟩ |
    ⟨flag, i, syms, h1, h2, h3, h4, h5, _, _, h6⟩ | ⟨flag, i, h1, h2, h3, h4, h5, h6⟩
  · rw [h2] at h; injection h with h; exact .inl ⟨h1, h.symm⟩
  · rw [h2] at h; cases h
  · rw [h6] at h
    exact .inr (.inl ⟨flag, i, h1, h2, h3, h4, h5, finishToken_next h⟩)
  · rw [h6] at h; injection h with h
    exact .inr (.inr ⟨flag, i, h1, h2, h3, h4, h5, h.symm⟩)

/-- The same at the decided parameters, where no room for a flag is an error. -/
theorem coreStep_cases {s t : State} (h : coreStep Config.decided s = .next t) :
    (s.n ≤ s.pos ∧ t = raiseError .eos s.pos s) ∨
    (∃ flag i, s.pos < s.n ∧ Memory.read s.strm s.pos = some flag ∧ i.flagClass = Config.decided.cls flag ∧
      s.pos + tokenLength s.ob s.lb i.flagClass ≤ s.n ∧ i.wellFormed s.ob s.lb = true ∧
      t = endOfStreamTest (afterComplete i s)) ∨
    (∃ flag i, s.pos < s.n ∧ Memory.read s.strm s.pos = some flag ∧ i.flagClass = Config.decided.cls flag ∧
      i ≠ .nopx ∧ s.n < s.pos + tokenLength s.ob s.lb i.flagClass ∧ t = afterCutShort i s) :=
  coreStep_casesIn h

/-! ### Whose step it is -/

theorem stepIn_nil {c : Config} {s : State} (h : s.hostQueue = []) : stepIn c s = coreTurn c s := by
  rw [stepIn, h]

theorem stepIn_busy {c : Config} {s : State} (hq : s.hostQueue = []) (hb : s.phase = .busy) :
    stepIn c s = coreStep c s := by
  rw [stepIn_nil hq, coreTurn, if_pos hb]

theorem stepIn_idle {c : Config} {s : State} (hq : s.hostQueue = []) (hb : s.phase ≠ .busy) :
    stepIn c s = .next s := by
  rw [stepIn_nil hq, coreTurn, if_neg hb]

theorem stepIn_pass {c : Config} {s : State} {rest : List HostOp} (h : s.hostQueue = .pass :: rest) :
    stepIn c s = coreTurn c { s with hostQueue := rest } := by
  rw [stepIn, h]

theorem stepIn_host {c : Config} {s : State} {op : HostOp} {rest : List HostOp} (h : s.hostQueue = op :: rest)
    (hp : op ≠ .pass) : stepIn c s = hostStep c op { s with hostQueue := rest } := by
  rw [stepIn, h]
  cases op <;> first | exact absurd rfl hp | rfl

theorem step_eq (s : State) : step s = stepIn Config.decided s := rfl

theorem step_busy {s : State} (hq : s.hostQueue = []) (hb : s.phase = .busy) :
    step s = coreStep Config.decided s := stepIn_busy hq hb

theorem step_idle {s : State} (hq : s.hostQueue = []) (hb : s.phase ≠ .busy) : step s = .next s :=
  stepIn_idle hq hb

theorem step_host {s : State} {op : HostOp} {rest : List HostOp} (h : s.hostQueue = op :: rest) (hp : op ≠ .pass) :
    step s = hostStep Config.decided op { s with hostQueue := rest } := stepIn_host h hp

theorem unlessBusy_next {s t : State} {o : Host.Outcome State Fault Refusal} (h : unlessBusy s o = .next t) :
    s.phase ≠ .busy ∧ o = .next t := by
  rw [unlessBusy] at h
  split at h
  · cases h
  · exact ⟨‹_›, h⟩

theorem ite_next {p : Prop} [Decidable p] {s t : State} {r : Refusal}
    (h : (if p then Host.Outcome.next s else .refused r) = (.next t : Host.Outcome State Fault Refusal)) :
    p ∧ t = s := by
  split at h
  · exact ⟨‹_›, (Host.Outcome.next.inj h).symm⟩
  · cases h

theorem onlyWhenDone_next {s t : State} {o : Host.Outcome State Fault Refusal} (h : onlyWhenDone s o = .next t) :
    s.phase = .done ∧ o = .next t := by
  rw [onlyWhenDone] at h
  split at h
  · exact ⟨‹_›, h⟩
  · cases h
  · cases h

/-- Everything one step of the host can lead to, at every value of the parameters. -/
theorem hostStep_cases {c : Config} {op : HostOp} {s t : State} (h : hostStep c op s = .next t) :
    (t = s ∧ (op = .pass ∨ ∃ w, op = .writeReg .ctrl w)) ∨
    (op = .hardReset ∧ t = hardReset s) ∨
    (∃ r more, t = replyThen r more s ∧ (more = [] ∨ s.phase = .done)) ∨
    (∃ w, op = .writeReg .ctrl w ∧ w % 2 = 1 ∧ s.phase ≠ .busy ∧ configInRange c s = true ∧ t = startCall s) ∨
    (s.phase ≠ .busy ∧ ∃ v, v ≤ c.obMax ∧ t = { s with cfgOb := v }) ∨
    (s.phase ≠ .busy ∧ ∃ v, v ≤ c.lbMax ∧ t = { s with cfgLb := v }) ∨
    (s.phase ≠ .busy ∧ ∃ v, v ≤ c.strmCap ∧ t = { s with strmLen := v }) ∨
    (s.phase ≠ .busy ∧ ∃ a sym, a < c.strmCap ∧ t = { s with strm := Memory.write s.strm a (sym % 2 ^ c.symw) }) := by
  cases op with
  | pass => exact .inl ⟨(Host.Outcome.next.inj h).symm, .inl rfl⟩
  | hardReset => exact .inr (.inl ⟨rfl, (Host.Outcome.next.inj h).symm⟩)
  | readReg r =>
    rw [hostStep, hostReadReg] at h
    split at h
    · exact .inr (.inr (.inl ⟨_, [], (Host.Outcome.next.inj h).symm, .inl rfl⟩))
    · exact .inr (.inr (.inl ⟨_, [], (Host.Outcome.next.inj (unlessBusy_next h).2).symm, .inl rfl⟩))
  | writeReg r w =>
    cases r <;> simp only [hostStep, hostWriteReg] at h
    case ctrl =>
      rw [writeCtrl] at h
      split at h
      · next hc => exact .inr (.inr (.inr (.inl ⟨w, rfl, hc.1, hc.2, ite_next h⟩)))
      · exact .inl ⟨(Host.Outcome.next.inj h).symm, .inr ⟨w, rfl⟩⟩
    case cfgOb =>
      obtain ⟨hb, h⟩ := unlessBusy_next h
      exact .inr (.inr (.inr (.inr (.inl ⟨hb, _, ite_next h⟩))))
    case cfgLb =>
      obtain ⟨hb, h⟩ := unlessBusy_next h
      exact .inr (.inr (.inr (.inr (.inr (.inl ⟨hb, _, ite_next h⟩)))))
    case strmLen =>
      obtain ⟨hb, h⟩ := unlessBusy_next h
      exact .inr (.inr (.inr (.inr (.inr (.inr (.inl ⟨hb, _, ite_next h⟩))))))
    all_goals nomatch (unlessBusy_next h).2
  | readStrm a =>
    rw [hostStep, hostReadStrm] at h
    have h := (unlessBusy_next h).2
    split at h
    · cases h
    · split at h
      · cases h
      · split at h
        · exact .inr (.inr (.inl ⟨_, [], (Host.Outcome.next.inj h).symm, .inl rfl⟩))
        · cases h
  | writeStrm a sym =>
    obtain ⟨hb, h⟩ := unlessBusy_next h
    exact .inr (.inr (.inr (.inr (.inr (.inr (.inr ⟨hb, a, sym, ite_next h⟩))))))
  | readOut a =>
    rw [hostStep, hostReadOut] at h
    have h := (unlessBusy_next h).2
    split at h
    · exact .inr (.inr (.inl ⟨_, [], (Host.Outcome.next.inj h).symm, .inl rfl⟩))
    · cases h
  | readResult =>
    obtain ⟨hd, h⟩ := onlyWhenDone_next h
    exact .inr (.inr (.inl ⟨_, _, (Host.Outcome.next.inj h).symm, .inr hd⟩))
  | readOutput =>
    obtain ⟨hd, h⟩ := onlyWhenDone_next h
    exact .inr (.inr (.inl ⟨_, _, (Host.Outcome.next.inj h).symm, .inr hd⟩))

/-- Everything one step can lead to: nothing, the core's step, or the host's. -/
theorem stepIn_cases {c : Config} {s t : State} (h : stepIn c s = .next t) :
    (s.hostQueue = [] ∧ s.phase ≠ .busy ∧ t = s) ∨
    (∃ rest, s.hostQueue = .pass :: rest ∧ s.phase ≠ .busy ∧ t = { s with hostQueue := rest }) ∨
    (s.hostQueue = [] ∧ s.phase = .busy ∧ coreStep c s = .next t) ∨
    (∃ rest, s.hostQueue = .pass :: rest ∧ s.phase = .busy ∧ coreStep c { s with hostQueue := rest } = .next t) ∨
    (∃ op rest, s.hostQueue = op :: rest ∧ op ≠ .pass ∧ hostStep c op { s with hostQueue := rest } = .next t) := by
  cases hq : s.hostQueue with
  | nil =>
    by_cases hb : s.phase = .busy
    · rw [stepIn_busy hq hb] at h; exact .inr (.inr (.inl ⟨rfl, hb, h⟩))
    · rw [stepIn_idle hq hb] at h; injection h with h; exact .inl ⟨rfl, hb, h.symm⟩
  | cons op rest =>
    by_cases hp : op = .pass
    · subst hp
      rw [stepIn_pass hq, coreTurn] at h
      by_cases hb : s.phase = .busy
      · rw [if_pos hb] at h; exact .inr (.inr (.inr (.inl ⟨rest, rfl, hb, h⟩)))
      · rw [if_neg hb] at h; injection h with h; exact .inr (.inl ⟨rest, rfl, hb, h.symm⟩)
    · rw [stepIn_host hq hp] at h; exact .inr (.inr (.inr (.inr ⟨op, rest, rfl, hp, h⟩)))

end Sys2Proof.Machine
end

