-- ==== Sys2Proof/Laws/Run.lean ====
section
/-! SUPPORT. Runs of several steps (`runSteps`), said once, and what every step of the core keeps. -/

namespace Sys2Proof.Machine

/-- A run takes the first step and goes on from there. -/
theorem run_succ (k : Nat) (s : State) :
    runSteps (k + 1) s =
      match step s with
      | .next t => runSteps k t
      | .fault r => .fault r
      | .refused r => .refused r := rfl

@[simp] theorem run_zero (s : State) : runSteps 0 s = .next s := rfl

theorem run_next {k : Nat} {s t : State} (h : step s = .next t) :
    runSteps (k + 1) s = runSteps k t := by
  rw [run_succ, h]

/-- A run in two parts. -/
theorem run_add {k j : Nat} {s t : State} (h : runSteps k s = .next t) :
    runSteps (k + j) s = runSteps j t := by
  induction k generalizing s with
  | zero =>
    rw [run_zero] at h
    cases h
    rw [Nat.zero_add]
  | succ k ih =>
    rw [show k + 1 + j = (k + j) + 1 by omega]
    rw [run_succ] at h
    cases hs : step s with
    | next u => rw [run_next hs]; rw [hs] at h; exact ih h
    | fault r => rw [hs] at h; cases h
    | refused r => rw [hs] at h; cases h

/-- `runSteps` is the run of the host's interface at this machine. -/
theorem run_eq_host (k : Nat) (s : State) : Host.Core.run Sys2Proof.core k s = runSteps k s := by
  induction k generalizing s with
  | zero => rfl
  | succ k ih =>
    have e := Host.Core.run.eq_2 Sys2Proof.core s k
    rw [run_succ]
    cases h : step s with
    | next t => rw [show Sys2Proof.core.step s = .next t from h] at e; exact e.trans (ih t)
    | fault r => rw [show Sys2Proof.core.step s = .fault r from h] at e; exact e
    | refused r => rw [show Sys2Proof.core.step s = .refused r from h] at e; exact e

/-- With no host operation pending and no call running, nothing happens. -/
theorem run_idle {s : State} (hq : s.hostQueue = []) (hd : s.phase ≠ .busy) (k : Nat) :
    runSteps k s = .next s := by
  induction k with
  | zero => exact run_zero s
  | succ k ih => rw [run_next (step_idle hq hd)]; exact ih

/-- The decided classification, read as the two characters (R42). -/
theorem decided_cls (sym : Symbol) :
    (Config.decided.cls sym = .s0 ↔ sym = zeroSymbol) ∧ (Config.decided.cls sym = .s1 ↔ sym = oneSymbol) ∧
      (Config.decided.cls sym = .sX ↔ sym ≠ zeroSymbol ∧ sym ≠ oneSymbol) := by
  simp only [Config.decided, Config.decidedCls, zeroSymbol, oneSymbol]
  by_cases h0 : sym = 0x30
  · subst h0; decide
  · by_cases h1 : sym = 0x31
    · subst h1; decide
    · simp [h0, h1]

/-- The end-of-stream test touches `phase` and `result` only. -/
theorem endOfStreamTest_same (s : State) :
    SameForTheHost s (endOfStreamTest s) ∧ (endOfStreamTest s).out = s.out ∧ (endOfStreamTest s).win = s.win ∧
      (endOfStreamTest s).pos = s.pos ∧ (endOfStreamTest s).errPos = s.errPos := by
  rw [endOfStreamTest, SameForTheHost]; split <;> simp

/-- A step of the core leaves the host's side alone, moves the cursor forward only, and appends to the output. -/
theorem coreStep_same {s t : State} (h : coreStep Config.decided s = .next t) :
    SameForTheHost s t ∧ s.pos ≤ t.pos ∧ s.out <+: t.out := by
  rcases coreStep_cases h with ⟨_, rfl⟩ | ⟨f, i, _, _, _, _, _, rfl⟩ | ⟨f, i, _, _, _, _, _, rfl⟩
  · exact ⟨⟨rfl, rfl, rfl, rfl, rfl, rfl⟩, Nat.le_refl _, List.prefix_refl _⟩
  · obtain ⟨hs, ho, _, hp, _⟩ := endOfStreamTest_same (afterComplete i s)
    exact ⟨hs, by rw [hp]; simp, by rw [ho]; exact ⟨_, rfl⟩⟩
  · exact ⟨⟨rfl, rfl, rfl, rfl, rfl, rfl⟩, by simp [afterCutShort], List.prefix_refl _⟩

/-- A step of the core in a running call ends it, or advances the cursor within the stream and records nothing. -/
theorem coreStep_phase {s t : State} (hb : s.phase = .busy) (h : coreStep Config.decided s = .next t) :
    (t.phase = .busy ∧ t.result = s.result ∧ t.errPos = s.errPos ∧ t.pos < t.n ∧ s.pos < t.pos) ∨
      t.phase = .done := by
  rcases coreStep_cases h with ⟨_, rfl⟩ | ⟨f, i, _, _, _, _, _, rfl⟩ | ⟨f, i, _, _, _, _, _, rfl⟩
  · exact .inr rfl
  · rcases endOfStreamTest_cases (afterComplete i s) with ⟨e, _⟩ | ⟨e, h⟩
    · rw [e]; exact .inr rfl
    · rw [e]
      refine .inl ⟨hb, rfl, rfl, h hb, ?_⟩
      have := tokenLength_pos s.ob s.lb i.flagClass
      simp; omega
  · exact .inr rfl

/-- A token whose symbols lie within the stream runs as the decoder reads it. -/
theorem coreStep_decoded {s t : State} {i : Instr} {syms : List Symbol} (hl : s.pos + syms.length ≤ s.n)
    (hr : ∀ k, k < syms.length → Memory.read s.strm (s.pos + k) = syms[k]?)
    (hd : decode Config.decided.cls s.ob s.lb syms = .ok (i, [])) (he : exec i s = .next t) :
    coreStep Config.decided s = .next (endOfStreamTest t) := by
  cases syms with
  | nil => simp [decode] at hd
  | cons flag body =>
    have hlen : (flag :: body).length = tokenLength s.ob s.lb (Config.decided.cls flag) := by
      by_cases hb : bodyLength s.ob s.lb (Config.decided.cls flag) ≤ body.length
      · obtain ⟨j, hj, _, _⟩ := decode_complete hb
        rw [hj] at hd; injection hd with hd; injection hd with _ hd
        have := congrArg List.length hd
        simp at this
        simp [tokenLength]; omega
      · rcases decode_cutShort (ob := s.ob) (lb := s.lb) (Nat.lt_of_not_le hb) with ⟨_, hj⟩ | ⟨_, hj⟩ <;>
          rw [hj] at hd <;> cases hd
    have h0 : Memory.read s.strm s.pos = some flag := by simpa using hr 0 (by simp)
    have hrun : Memory.readRun s.strm s.pos (flag :: body).length = some (flag :: body) :=
      Memory.readRun_eq_some.2 ⟨rfl, hr⟩
    rw [coreStep, if_pos (by rw [fits_iff]; simp at hl; omega), tokenSymbols_eq _ _ _ h0, ← hlen, if_pos hl, hrun]
    simp only [hd, runDecoded, he, finishToken_decided]

/-- A token cut short by the end of the stream, from its flag alone. -/
theorem coreStep_cutShort {s : State} {flag : Symbol} {i : Instr} (h1 : s.pos < s.n)
    (h2 : Memory.read s.strm s.pos = some flag) (h3 : i.flagClass = Config.decided.cls flag) (h4 : i ≠ .nopx)
    (h5 : s.n < s.pos + tokenLength s.ob s.lb i.flagClass) :
    coreStep Config.decided s = .next (afterCutShort i s) := by
  rw [coreStep, if_pos (by rw [fits_iff]; omega), tokenSymbols_eq _ _ _ h2, ← h3, if_neg (by omega)]
  cases i with
  | nopx => exact absurd rfl h4
  | lit c => simp only [decode, ← h3, Instr.flagClass]; rfl
  | bref o l =>
    simp only [decode, ← h3, Instr.flagClass]
    have : 0 < s.ob + s.lb := by
      simp [tokenLength, bodyLength, Instr.flagClass] at h5; omega
    simp only [List.length_nil, this, if_true]; rfl

/-- No room for a flag. -/
theorem coreStep_noRoom {s : State} (h : s.n ≤ s.pos) :
    coreStep Config.decided s = .next (raiseError .eos s.pos s) := by
  rw [coreStep, if_neg (by rw [fits_iff]; omega)]; rfl

/-- Every step of the core in a run leaves the host's list empty where it was. -/
theorem run_hostQueue (k : Nat) {s t : State} (hq : s.hostQueue = []) (h : runSteps k s = .next t) :
    t.hostQueue = [] := by
  induction k generalizing s with
  | zero => rw [run_zero] at h; cases h; exact hq
  | succ k ih =>
    rw [run_succ] at h
    by_cases hb : s.phase = .busy
    · rw [step_busy hq hb] at h
      cases hs : coreStep Config.decided s with
      | next x => rw [hs] at h; exact ih ((coreStep_same hs).1.2.2.2.2.1.trans hq) h
      | fault r => rw [hs] at h; cases h
      | refused r => rw [hs] at h; cases h
    · rw [step_idle hq hb] at h; exact ih hq h

/-- Once a run has ended its call, further steps change nothing. -/
theorem run_more {k : Nat} (j : Nat) {s t : State} (hq : s.hostQueue = []) (h : runSteps k s = .next t)
    (hd : t.phase ≠ .busy) : runSteps (k + j) s = .next t := by
  rw [run_add h]; exact run_idle (run_hostQueue k hq h) hd j

end Sys2Proof.Machine
end

