-- ==== Sys2Proof/Tests/Slice0.lean ====
section
/-! SUPPORT. The model's own tests: ill-formed tokens refused, words decoded, single steps, and for every statement with
hypotheses a state that meets them. Expected values are those of spec/95_test_vectors.md (the vector is named in each
comment) or are read off the rule named there. -/

namespace Sys2Proof.Tests

open Sys2Proof.Machine

/-- Symbols written as numbers: 0 and 1 are the characters '0' and '1', anything else is 'x'. -/
def bits (l : List Nat) : List Symbol :=
  l.map (fun k => if k = 0 then 0x30 else if k = 1 then 0x31 else 0x78)

/-- A running call at symbol 0 of a loaded stream, no host operation pending. -/
def call (ob lb : Nat) (stream : List Nat) : State := placeProgram ob lb (bits stream) State.reset

/-- The same with bytes already emitted, all of them in the window. -/
def callWith (ob lb : Nat) (stream : List Nat) (emitted : List Byte) : State :=
  { call ob lb stream with out := emitted, win := emitted }

/-- A block with host operations pending. -/
def pending (phase : Phase) (ops : List HostOp) : State := { State.reset with phase := phase, hostQueue := ops }

def nextOf (o : Host.Outcome State Fault Refusal) : Option State :=
  match o with
  | .next t => some t
  | _ => none

def refusalOf (o : Host.Outcome State Fault Refusal) : Option Refusal :=
  match o with
  | .refused r => some r
  | _ => none

def faultOf (o : Host.Outcome State Fault Refusal) : Option Fault :=
  match o with
  | .fault r => some r
  | _ => none

theorem eq_next {o : Host.Outcome State Fault Refusal} {t : State} (h : nextOf o = some t) : o = .next t := by
  cases o <;> simp_all [nextOf]

theorem exists_next {o : Host.Outcome State Fault Refusal} {p : State → Bool}
    (h : (nextOf o).any p = true) : ∃ t, o = .next t ∧ p t = true := by
  cases o <;> simp_all [nextOf]

/-- What a decode gave, as data that can be compared. -/
def decoded (d : Except DecodeError (Instr × List Symbol)) : Option (Instr × List Symbol) :=
  match d with
  | .ok r => some r
  | .error _ => none

def rejected (d : Except DecodeError (Instr × List Symbol)) : Option DecodeError :=
  match d with
  | .ok _ => none
  | .error e => some e

/-! ## Well-formedness: one ill-formed term for each check -/

/-- R65, R69: an offset of `2^OB` does not fit its field. -/
theorem test_offset_too_wide : (Instr.bref 512 0).wellFormed 9 3 = false := by decide

/-- R65, R69: a length of `2^LB` does not fit its field. -/
theorem test_length_too_wide : (Instr.bref 0 8).wellFormed 9 3 = false := by decide

/-- R65: the largest values of both fields fit. -/
theorem test_widest_fields : (Instr.bref 511 7).wellFormed 9 3 = true := by decide

/-- R73: with widths 0 only the value 0 fits. -/
theorem test_empty_fields : (Instr.bref 0 0).wellFormed 0 0 = true ∧ (Instr.bref 1 0).wellFormed 0 0 = false := by
  decide

/-- R69: a program with a value that does not fit is an assembly error. -/
theorem test_assembly_error : assemble 9 3 [.nopx, .bref 512 1] = none := by decide

/-! ## Decoding: words written out from the tables of R62, R63 and R64 -/

/-- R62, vector S1: 'A' is `01000001`, so symbol 1 weighs 128 and symbol 8 weighs 1. -/
theorem test_decode_lit :
    decode Config.decided.cls 9 3 [0x30, 0x30, 0x31, 0x30, 0x30, 0x30, 0x30, 0x30, 0x31] = .ok (.lit 65, []) := rfl

/-- R63, program P1: `BREF 2, 5` is `1 000000010 101`; one symbol is left over. -/
theorem test_decode_bref :
    decode Config.decided.cls 9 3
      [0x31, 0x30, 0x30, 0x30, 0x30, 0x30, 0x30, 0x30, 0x31, 0x30, 0x31, 0x30, 0x31, 0x31] =
        .ok (.bref 2 5, [0x31]) := rfl

/-- R64, vector V1: any symbol that is neither '0' nor '1' is a `NOPX` of one symbol, the code 0 among them. -/
theorem test_decode_nopx :
    decode Config.decided.cls 9 3 [0x3F, 0x30] = .ok (.nopx, [0x30]) ∧
      decode Config.decided.cls 9 3 [0x00] = .ok (.nopx, []) := ⟨rfl, rfl⟩

/-- R73, vector B11: with `OB = LB = 0` a back-reference is its flag. -/
theorem test_decode_empty_fields : decode Config.decided.cls 0 0 [0x31] = .ok (.bref 0 0, []) := rfl

/-- Vector V5: a symbol of class `SX` in the body of a `LIT` is a 0 bit. -/
theorem test_decode_lit_malformed :
    decode Config.decided.cls 9 3 (bits [0, 0, 1, 0, 2, 0, 0, 0, 1]) = .ok (.lit 65, []) := rfl

/-- Vector V6: a symbol of class `SX` in the offset field is a 0 bit. -/
theorem test_decode_bref_malformed :
    decode Config.decided.cls 9 3 (bits [1, 0, 0, 0, 0, 0, 0, 0, 0, 2, 0, 0, 1]) = .ok (.bref 0 1, []) := rfl

/-- R68: what is cut short is rejected by name, and so is the empty list (vectors L13, B16 and S3). -/
theorem test_decode_rejects :
    decode Config.decided.cls 9 3 [] = .error .noFlag ∧
      decode Config.decided.cls 9 3 (bits [0, 0, 1, 0, 0, 0, 0, 0]) = .error .incompleteLiteral ∧
      decode Config.decided.cls 9 3 (bits [1, 0, 0, 0, 0, 0, 0, 0, 1, 0, 1, 0]) = .error .incompleteBackReference :=
  ⟨rfl, rfl, rfl⟩

/-- R69: the encodings in the other direction, from the same tables. -/
theorem test_encode :
    encode 9 3 (.lit 65) = bits [0, 0, 1, 0, 0, 0, 0, 0, 1] ∧
      encode 9 3 (.bref 2 5) = bits [1, 0, 0, 0, 0, 0, 0, 0, 1, 0, 1, 0, 1] ∧ encode 9 3 .nopx = bits [2] := by
  decide

/-- R69, R70, program P3's first and last lines and a `STR`: every line of the notation. -/
theorem test_assembly_lines :
    assembleLines 9 3 [.token (.lit 72), .token .nopx, .str [65, 66], .token (.bref 2 3), .raw (bits [1, 0, 0, 0, 0])] =
      some (bits ([0, 0, 1, 0, 0, 1, 0, 0, 0] ++ [2] ++ [0, 0, 1, 0, 0, 0, 0, 0, 1, 0, 0, 1, 0, 0, 0, 0, 1, 0] ++
        [1, 0, 0, 0, 0, 0, 0, 0, 1, 0, 0, 1, 1] ++ [1, 0, 0, 0, 0])) := by decide

/-- The numbering of table words (log entry 16): the table's patterns `0cccccccc` and `1ooooooooolll` as binary numbers
in two bytes, and `x` as one symbol's code. -/
theorem test_table_patterns :
    decodeTableWord 16 0b001000001 = some (.lit 65) ∧ decodeTableWord 16 0b1000000010101 = some (.bref 2 5) ∧
      decodeTableWord 8 0x78 = some .nopx := by decide

/-- The numbering of table words (log entry 16): the symbols' codes one after another, the first symbol lowest. -/
theorem test_table_codes :
    decodeTableWord 72 0x313030303030313030 = some (.lit 65) ∧
      decodeTableWord 104 0x31303130313030303030303031 = some (.bref 2 5) := by decide

/-! ## Single steps -/

/-- Vectors L1 and L2: 31 is dropped, 32 is kept. -/
theorem test_lit_lower_bound :
    (nextOf (exec (.lit 31) (call 9 3 [0, 0, 0, 0, 1, 1, 1, 1, 1]))).map State.out = some [] ∧
      (nextOf (exec (.lit 32) (call 9 3 [0, 0, 0, 1, 0, 0, 0, 0, 0]))).map State.out = some [32] := by decide

/-- Vectors L3 and L4: 126 is kept, 127 is dropped, and its 9 symbols are consumed. -/
theorem test_lit_upper_bound :
    (nextOf (exec (.lit 126) (call 9 3 [0, 0, 1, 1, 1, 1, 1, 1, 0]))).map State.out = some [126] ∧
      (nextOf (exec (.lit 127) (call 9 3 [0, 0, 1, 1, 1, 1, 1, 1, 1]))).map (fun t => (t.out, t.pos)) =
        some ([], 9) := by decide

/-- Vector B6: the copy sees its own output; seven bytes with period 2. -/
theorem test_bref_overlap :
    (nextOf (exec (.bref 2 7) (callWith 9 3 [1, 0, 0, 0, 0, 0, 0, 0, 1, 0, 1, 1, 1] [65, 66]))).map State.out =
      some [65, 66, 65, 66, 65, 66, 65, 66, 65] := by decide

/-- Program P4: with `W = 4` the window is trimmed after the copy, not during it. -/
theorem test_bref_trim :
    (nextOf (exec (.bref 3 3) { callWith 2 2 [1, 1, 1, 1, 1] [98, 99, 100, 101] with out := [97, 98, 99, 100, 101] })).map
        (fun t => (t.out, t.win)) =
      some ([97, 98, 99, 100, 101, 99, 100, 101], [101, 99, 100, 101]) := by decide

/-- Vector V1: a lone `NOPX` ends the call `OK` at symbol 1. -/
theorem test_nopx_step :
    (nextOf (step (call 9 3 [2]))).map (fun t => (t.pos, t.phase, t.result)) = some (1, .done, .ok) := by decide

/-- Vectors L13 and B15: a literal with 7 of its 8 body symbols, and a back-reference with its whole offset field but no
length field, both cut short at the cursor past the flag. -/
theorem test_cut_short :
    (nextOf (step (call 9 3 [0, 0, 1, 0, 0, 0, 0, 0]))).map (fun t => (t.pos, t.errPos, t.result, t.phase)) =
        some (1, 1, .incLit, .done) ∧
      (nextOf (step (call 9 3 [1, 0, 0, 0, 0, 0, 0, 0, 1, 0]))).map (fun t => (t.pos, t.errPos, t.result, t.phase)) =
        some (1, 1, .incBref, .done) := by decide

/-- Vector H2: `START` straight after reset is the empty-stream call; `STATUS` then reads `DONE` and `EOS`. -/
theorem test_start_after_reset :
    (nextOf (runSteps 2 (pending .idle [.writeReg .ctrl 1]))).map (fun t => (t.result, t.errPos, regRead Config.decided .status t)) =
      some (.eos, 0, 6) := by decide

/-- An instruction placed by the host of this package runs as the first step after reset. -/
theorem test_fetch_word :
    (nextOf (step (State.reset.withFetchWord 16 0b001000001))).map (fun t => (t.out, t.pos)) = some ([65], 9) ∧
      (nextOf (step (State.reset.withFetchWord 16 0b1000000010101))).map (fun t => (t.out, t.pos)) = some ([], 13) ∧
      (nextOf (step (State.reset.withFetchWord 8 0x78))).map (fun t => (t.out, t.pos)) = some ([], 1) := by decide

/-- R146, D12: `READ_RESULT` after `OK` does not read `ERR_POS`; after an error it does. The bytes come last, in order. -/
theorem test_read_result :
    (nextOf (runSteps 4 { pending .done readResultOps with out := [65, 66] })).map State.hostSeen =
        some [.reg .status 2, .reg .outLen 2, .out 0 65, .out 1 66] ∧
      (nextOf (runSteps 3 { pending .done readResultOps with result := .incLit, errPos := 24 })).map State.hostSeen =
        some [.reg .status 10, .reg .errPos 24, .reg .outLen 0] := by decide

/-- R6: the width of a configuration register follows from its largest value, at the decided 31 and beside powers of
two. -/
theorem test_field_width :
    fieldWidth 31 = 5 ∧ fieldWidth 32 = 6 ∧ fieldWidth 1 = 1 ∧ fieldWidth 0 = 0 ∧ fieldWidth 40 = 6 := by decide

/-- U2: with a smaller `OB_MAX` a larger value that fits the field is refused. -/
theorem test_ob_above_maximum :
    refusalOf (stepIn { Config.decided with obMax := 4 } (pending .idle [.writeReg .cfgOb 5])) =
      some .configOutOfRange := by decide

/-- R42: on a platform of real bits a stored symbol is one bit, and 0 and 1 are the two flags. -/
theorem test_real_bits :
    (nextOf (stepIn Config.realBits (pending .idle [.writeStrm 0 3]))).map State.strm = some [(0, 1)] ∧
      decode Config.realBits.cls 1 1 [1, 0, 1] = .ok (.bref 0 1, []) := ⟨by decide, rfl⟩

/-- Log entry 14: an unloaded symbol stops the run; no value is invented. -/
theorem test_unloaded_symbol :
    faultOf (step { call 9 3 [] with strmLen := 1 }) = some .unloadedSymbol := by decide

/-! ## Witnesses: for every statement with hypotheses, a state and operands that meet all of them together -/

/-- `FieldsAreUnsignedMsbFirstSums`: each clause at the shortest body it speaks of. -/
theorem witness_FieldsAreUnsignedMsbFirstSums :
    Config.decided.cls zeroSymbol = .s0 ∧ 8 ≤ (bits [0, 1, 0, 0, 0, 0, 0, 1]).length ∧
      Config.decided.cls oneSymbol = .s1 ∧ 2 + 1 ≤ (bits [1, 0, 1]).length ∧ Config.decided.cls xSymbol = .sX := by
  decide

/-- `OpcodeIsTheClassOfTheFlag`: both clauses, the body exactly long enough. -/
theorem witness_OpcodeIsTheClassOfTheFlag :
    decode Config.decided.cls 2 1 (oneSymbol :: bits [1, 0, 1]) = .ok (.bref 2 1, []) ∧
      bodyLength 2 1 (Config.decided.cls oneSymbol) ≤ (bits [1, 0, 1]).length := ⟨rfl, by decide⟩

/-- `DecodedTokensHaveTheirLength`: one list for each kind of token. -/
theorem witness_DecodedTokensHaveTheirLength :
    decode Config.decided.cls 2 1 (bits [0, 0, 1, 0, 0, 0, 0, 0, 1, 0]) = .ok (.lit 65, bits [0]) ∧
      decode Config.decided.cls 2 1 (bits [1, 1, 1, 1]) = .ok (.bref 3 1, []) ∧
      decode Config.decided.cls 2 1 (bits [2]) = .ok (.nopx, []) := ⟨rfl, rfl, rfl⟩

/-- `NonBinaryBodySymbolsReadAsZero`: vector V5's literal. -/
theorem witness_NonBinaryBodySymbolsReadAsZero :
    Config.decided.cls zeroSymbol = .s0 ∧
      decode Config.decided.cls 9 3 (zeroSymbol :: bits [0, 1, 0, 2, 0, 0, 0, 1]) = .ok (.lit 65, []) :=
  ⟨by decide, rfl⟩

/-- `DecodeOfEncodeIsTheToken`: the largest fields, and the empty ones. -/
theorem witness_DecodeOfEncodeIsTheToken :
    (Instr.bref 511 7).wellFormed 9 3 = true ∧ (Instr.bref 0 0).wellFormed 0 0 = true ∧
      (Instr.lit 255).wellFormed 9 3 = true ∧ Instr.nopx.wellFormed 9 3 = true := by decide

/-- `EncodeOfDecodeOnBinaryStreams`. -/
theorem witness_EncodeOfDecodeOnBinaryStreams :
    (∀ sym ∈ bits [1, 1, 0, 1, 0], sym = zeroSymbol ∨ sym = oneSymbol) ∧
      decode Config.decided.cls 2 1 (bits [1, 1, 0, 1, 0]) = .ok (.bref 2 1, bits [0]) := ⟨by decide, rfl⟩

/-- `AppendFeedsOutputAndWindow`: a step that emits. -/
theorem witness_AppendFeedsOutputAndWindow :
    ∃ t, step (call 9 3 [0, 0, 1, 0, 0, 0, 0, 0, 1]) = .next t ∧ decide (t.out = [65]) = true :=
  exists_next (by decide)

/-- `TrimKeepsTheNewestBytes`: a window exactly at its bound, `W = 2`. -/
theorem witness_TrimKeepsTheNewestBytes :
    (callWith 1 1 [] [65, 66]).win.length ≤ (callWith 1 1 [] [65, 66]).window := by decide

/-- `CanonicalFormIsKeptAndUnique`. -/
theorem witness_CanonicalFormIsKeptAndUnique :
    Memory.wf [(0, zeroSymbol), (2, oneSymbol)] ∧ (∀ a, Memory.read [(0, zeroSymbol), (2, oneSymbol)] a =
      Memory.read (Memory.write [(2, oneSymbol)] 0 zeroSymbol) a) := ⟨by decide, fun _ => rfl⟩

/-- `LitAppendsPrintableBytesOnly`: the body exactly fits; the bounds 32 and 126, and 31 and 127 beside them, with a
full window. -/
theorem witness_LitAppendsPrintableBytesOnly :
    (call 9 3 [0, 0, 0, 1, 0, 0, 0, 0, 0]).pos + 9 ≤ (call 9 3 [0, 0, 0, 1, 0, 0, 0, 0, 0]).n ∧
      (32 ≤ (32 : Byte).toNat ∧ (32 : Byte).toNat ≤ 126) ∧ (32 ≤ (126 : Byte).toNat ∧ (126 : Byte).toNat ≤ 126) ∧
      ¬ (32 ≤ (31 : Byte).toNat ∧ (31 : Byte).toNat ≤ 126) ∧
      ¬ (32 ≤ (127 : Byte).toNat ∧ (127 : Byte).toNat ≤ 126) ∧
      (callWith 0 0 [0, 0, 1, 1, 1, 1, 1, 1, 1] [65]).win.length ≤
        (callWith 0 0 [0, 0, 1, 1, 1, 1, 1, 1, 1] [65]).window := by decide

/-- `LitCutShortEndsTheCall`: 8 symbols of 9. -/
theorem witness_LitCutShortEndsTheCall :
    (call 9 3 [0, 0, 1, 0, 0, 0, 0, 0]).n < (call 9 3 [0, 0, 1, 0, 0, 0, 0, 0]).pos + 9 := by decide

/-- `BrefCopiesOneByteAtATime`: the exact fit with `offset = |win|`, a source at the end of the window, and one before
it. -/
theorem witness_BrefCopiesOneByteAtATime :
    let s := callWith 2 2 [1, 1, 0, 1, 1] [65, 66]
    s.pos + (1 + s.ob + s.lb) ≤ s.n ∧ 2 ≤ s.win.length ∧ (3 : Nat) ≠ 0 ∧ s.win.length ≤ 2 ∧ s.win[1]? = some 66 := by
  decide

/-- `InvalidBrefIsSkipped`: `offset = |win| + 1`, `length = 0`, and `offset = |win|`. -/
theorem witness_InvalidBrefIsSkipped :
    let s := callWith 2 2 [1, 1, 1, 1, 1] [65, 66]
    s.pos + (1 + s.ob + s.lb) ≤ s.n ∧ s.win.length ≤ s.window ∧ 3 > s.win.length ∧ 2 = s.win.length ∧
      (1 : Nat) ≠ 0 ∧ s.win[0]? = some 65 := by decide

/-- `ZeroOffsetCopiesNothing`: program P6's second token. -/
theorem witness_ZeroOffsetCopiesNothing :
    let s := callWith 0 2 [1, 1, 1] [65]
    s.pos + (1 + s.ob + s.lb) ≤ s.n ∧ s.win.length ≤ s.window := by decide

/-- `BrefEmitsAPeriodicCopy`: `BREF 2, 7`, longer than its offset (vector B6). -/
theorem witness_BrefEmitsAPeriodicCopy :
    let s := callWith 9 3 [1, 0, 0, 0, 0, 0, 0, 0, 1, 0, 1, 1, 1] [65, 66]
    s.pos + (1 + s.ob + s.lb) ≤ s.n ∧ 1 ≤ 2 ∧ 2 ≤ s.win.length ∧ (7 : Nat) ≠ 0 := by decide

/-- `BrefCutShortEndsTheCall`: one symbol is missing. -/
theorem witness_BrefCutShortEndsTheCall :
    let s := call 2 2 [1, 1, 1, 1]
    s.n < s.pos + (1 + s.ob + s.lb) := by decide

/-- `NopxConsumesJustTheFlag`: the last symbol of the stream. -/
theorem witness_NopxConsumesJustTheFlag :
    let s := call 9 3 [2]
    s.phase = .busy ∧ s.hostQueue = [] ∧ s.pos < s.n ∧ Memory.read s.strm s.pos = some xSymbol ∧
      xSymbol ≠ zeroSymbol ∧ xSymbol ≠ oneSymbol := by decide

/-- `CompleteTokensSetNoStatus`: an exact fit for each kind of token. -/
theorem witness_CompleteTokensSetNoStatus :
    let s := call 2 2 [0, 0, 1, 0, 0, 0, 0, 0, 1]
    let t := call 2 2 [1, 1, 1, 1, 1]
    let u := call 2 2 [2]
    s.pos + tokenLength s.ob s.lb (Instr.lit 65).flagClass ≤ s.n ∧
      t.pos + tokenLength t.ob t.lb (Instr.bref 3 3).flagClass ≤ t.n ∧
      u.pos + tokenLength u.ob u.lb Instr.nopx.flagClass ≤ u.n := by decide

/-- `TokensLeaveTheRestAlone`: a complete token and one cut short. -/
theorem witness_TokensLeaveTheRestAlone :
    (∃ t, exec (.bref 1 3) (callWith 2 2 [1, 0, 1, 1, 1] [65]) = .next t ∧
      decide (t.phase = .busy ∧ t.out = [65, 65, 65, 65]) = true) ∧
    (∃ t, exec (.bref 1 3) (callWith 2 2 [1, 0, 1] [65]) = .next t ∧ decide (t.phase = .done) = true) :=
  ⟨exists_next (by decide), exists_next (by decide)⟩

/-- `OneTokenEmitsBoundedOutput`: a back-reference of the greatest length. -/
theorem witness_OneTokenEmitsBoundedOutput :
    let s := callWith 2 2 [1, 0, 1, 1, 1] [65]
    (Instr.bref 1 3).wellFormed s.ob s.lb = true ∧ s.win.length ≤ s.window ∧
      ∃ t, exec (.bref 1 3) s = .next t ∧ decide (t.out.length = 4) = true :=
  ⟨by decide, by decide, exists_next (by decide)⟩

/-- `TransientWindowIsBounded`: a full window and the greatest length. -/
theorem witness_TransientWindowIsBounded :
    let s := callWith 1 2 [] [65, 66]
    s.win.length ≤ s.window ∧ 3 < 2 ^ s.lb := by decide

/-- `DegenerateWidthsEmitNothing`: each width alone 0, and both (vectors P6, B13, B11). -/
theorem witness_DegenerateWidthsEmitNothing :
    let s := callWith 0 2 [1, 1, 1] [65]
    let t := callWith 3 0 [1, 0, 0, 1] [65]
    let u := call 0 0 [1]
    ((Instr.bref 0 3).wellFormed s.ob s.lb = true ∧ s.win.length ≤ s.window ∧ s.ob = 0 ∧
      s.pos + (1 + s.ob + s.lb) ≤ s.n) ∧
    ((Instr.bref 1 0).wellFormed t.ob t.lb = true ∧ t.win.length ≤ t.window ∧ t.lb = 0 ∧
      t.pos + (1 + t.ob + t.lb) ≤ t.n) ∧
    ((Instr.bref 0 0).wellFormed u.ob u.lb = true ∧ u.win.length ≤ u.window ∧ u.ob = 0 ∧
      u.pos + (1 + u.ob + u.lb) ≤ u.n) := by decide

/-- A call whose window no longer holds the whole output: `W = 2`. -/
def trimmed : State := { callWith 1 1 [1, 1, 1] [66, 67] with out := [65, 66, 67] }

/-- `WindowFreeReadingAgrees`: the window is a proper part of the output. -/
theorem witness_WindowFreeReadingAgrees :
    (Instr.bref 1 1).wellFormed trimmed.ob trimmed.lb = true ∧
      trimmed.win = keepNewest trimmed.window trimmed.out ∧
      trimmed.pos + tokenLength trimmed.ob trimmed.lb (Instr.bref 1 1).flagClass ≤ trimmed.n := by decide

/-- `RingRealisesTheWindow`: a full ring whose oldest byte does not stand in its first cell. -/
theorem witness_RingRealisesTheWindow :
    (Instr.bref 1 1).wellFormed trimmed.ob trimmed.lb = true ∧
      Ring.Realises trimmed.window ⟨[67, 66], 1, 2⟩ trimmed.win ∧
      trimmed.pos + tokenLength trimmed.ob trimmed.lb (Instr.bref 1 1).flagClass ≤ trimmed.n := by
  refine ⟨by decide, ⟨by decide, by decide, by decide, by decide, fun d h1 h2 => ?_⟩, by decide⟩
  have h2 : d ≤ 2 := h2
  have h : d = 1 ∨ d = 2 := by omega
  rcases h with rfl | rfl <;> decide

/-- `StepRunsTheDecodedToken`: program P1's last token, at the end of its stream. -/
theorem witness_StepRunsTheDecodedToken :
    let s := callWith 9 3 [1, 0, 0, 0, 0, 0, 0, 0, 1, 0, 1, 0, 1] [65, 66]
    let syms := bits [1, 0, 0, 0, 0, 0, 0, 0, 1, 0, 1, 0, 1]
    s.phase = .busy ∧ s.hostQueue = [] ∧ s.pos + syms.length ≤ s.n ∧
      (∀ k, k < syms.length → Memory.read s.strm (s.pos + k) = syms[k]?) ∧
      decode Config.decided.cls s.ob s.lb syms = .ok (.bref 2 5, []) ∧
      ∃ t, exec (.bref 2 5) s = .next t ∧ decide (t.out = [65, 66, 65, 66, 65, 66, 65]) = true :=
  ⟨by decide, by decide, by decide, by decide, rfl, exists_next (by decide)⟩

/-- `EndOfStreamEndsTheCallOk`: a token that reaches the end, one that does not, and a stream of two
tokens with an `SX` symbol as a flag and one inside a body. -/
theorem witness_EndOfStreamEndsTheCallOk :
    ((call 9 3 [2]).phase = .busy ∧
      ∃ t, exec .nopx (call 9 3 [2]) = .next t ∧ decide (t.phase = .busy ∧ t.n ≤ t.pos) = true) ∧
    ((call 9 3 [2, 2]).phase = .busy ∧
      ∃ t, exec .nopx (call 9 3 [2, 2]) = .next t ∧ decide (t.phase = .busy ∧ t.pos < t.n) = true) ∧
    (let s := call 1 1 [3, 1, 2, 1];
      [Instr.nopx, .bref 0 1] ≠ [] ∧
      ReadsAs Config.decided.cls s.ob s.lb [.nopx, .bref 0 1] (bits [3, 1, 2, 1]) ∧
      s.n = (bits [3, 1, 2, 1]).length ∧ Memory.readRun s.strm 0 s.n = some (bits [3, 1, 2, 1])) :=
  ⟨⟨by decide, exists_next (by decide)⟩, ⟨by decide, exists_next (by decide)⟩,
    by decide, ⟨_, rfl, _, rfl, rfl⟩, by decide, by decide⟩

/-- `EmptyStreamEndsTheCall`: the empty stream, under both values of the parameter. -/
theorem witness_EmptyStreamEndsTheCall :
    let s := call 9 3 []
    s.phase = .busy ∧ s.hostQueue = [] ∧ s.n < s.pos + 1 ∧ Config.decided.emptyStreamIsError = true ∧
      ({ Config.decided with emptyStreamIsError := false } : Config).emptyStreamIsError = false := by decide

/-- `TokenCutShortEndsTheCall`: each flag with one symbol missing. -/
theorem witness_TokenCutShortEndsTheCall :
    let s := call 9 3 [0, 0, 1, 0, 0, 0, 0, 0]
    let t := call 2 2 [1, 1, 1, 1]
    (s.phase = .busy ∧ s.hostQueue = [] ∧ s.pos < s.n ∧ Memory.read s.strm s.pos = some zeroSymbol ∧
      s.n < s.pos + 9) ∧
    (t.phase = .busy ∧ t.hostQueue = [] ∧ t.pos < t.n ∧ Memory.read t.strm t.pos = some oneSymbol ∧
      t.n < t.pos + (1 + t.ob + t.lb)) := by decide

/-- A running call whose step ends it with `r`. -/
def EndsWith (s : State) (r : Result) : Prop :=
  s.phase = .busy ∧ s.hostQueue = [] ∧ ∃ t, step s = .next t ∧ decide (t.phase = .done ∧ t.result = r) = true

/-- `AtMostOneErrorApplies`: each of the three errors, and a `NOPX` that ends the call. -/
theorem witness_AtMostOneErrorApplies :
    EndsWith (call 9 3 []) .eos ∧ EndsWith (call 9 3 [0]) .incLit ∧ EndsWith (call 9 3 [1]) .incBref ∧
      (EndsWith (call 9 3 [2]) .ok ∧ Memory.read (call 9 3 [2]).strm 0 = some xSymbol) :=
  ⟨⟨rfl, rfl, exists_next (by decide)⟩, ⟨rfl, rfl, exists_next (by decide)⟩,
    ⟨rfl, rfl, exists_next (by decide)⟩, ⟨rfl, rfl, exists_next (by decide)⟩, by decide⟩

/-- `ErrorsArePrecise`: an error with the flag consumed, and one without. -/
theorem witness_ErrorsArePrecise :
    EndsWith (callWith 2 2 [1, 1, 1] [65, 66]) .incBref ∧ EndsWith (call 0 0 []) .eos :=
  ⟨⟨rfl, rfl, exists_next (by decide)⟩, ⟨rfl, rfl, exists_next (by decide)⟩⟩

/-- The symbols of a stream of three are loaded. -/
theorem loaded_three : Loaded (call 9 3 [2, 0, 0]) := by
  intro a _ h
  have h : a < 3 := h
  have h : a = 0 ∨ a = 1 ∨ a = 2 := by omega
  rcases h with rfl | rfl | rfl <;> decide

/-- `LoadedCallsNeverStop`. -/
theorem witness_LoadedCallsNeverStop :
    (call 9 3 [2, 0, 0]).phase = .busy ∧ (call 9 3 [2, 0, 0]).hostQueue = [] ∧ Loaded (call 9 3 [2, 0, 0]) :=
  ⟨rfl, rfl, loaded_three⟩

/-- `FiniteOutputCapacityRefuses`: a capacity of one byte, reached by one literal and passed by the next. -/
theorem witness_FiniteOutputCapacityRefuses :
    let c := { Config.decided with outCap := some 1 }
    let s := call 9 3 [0, 0, 1, 0, 0, 0, 0, 0, 1]
    let t := callWith 9 3 [0, 0, 1, 0, 0, 0, 0, 0, 1] [65]
    c.outCap = some 1 ∧ s.out.length ≤ 1 ∧ t.out.length ≤ 1 ∧
      (∃ u, stepIn c s = .next u ∧ decide (u.out.length = 1) = true) ∧
      (∃ u, stepIn { c with outCap := none } t = .next u ∧ decide (1 < u.out.length) = true) ∧
      (∃ u, stepIn { c with outCap := none } s = .next u ∧ decide (u.out.length ≤ 1) = true) :=
  ⟨rfl, by decide, by decide, exists_next (by decide), exists_next (by decide), exists_next (by decide)⟩

/-- `EveryStepKeepsTheInvariant`: a running call in the middle of its stream, with output and window. -/
theorem witness_EveryStepKeepsTheInvariant :
    let s := { callWith 2 2 [2, 1, 0, 1, 1, 1] [65] with pos := 1 }
    Inv Config.decided s ∧ ∃ t, step s = .next t ∧ decide (t.out = [65, 65, 65, 65]) = true := by
  refine ⟨⟨by decide, by decide, by decide, by decide, by decide, by decide, by decide, ⟨[], rfl⟩,
    fun _ => ⟨.inl (by decide), rfl, rfl, rfl, by decide⟩, (fun h => nomatch h), (fun h => nomatch h)⟩,
    exists_next (by decide)⟩

/-- `EveryCallEnds`. -/
theorem witness_EveryCallEnds :
    (call 9 3 [2, 0, 0]).phase = .busy ∧ (call 9 3 [2, 0, 0]).hostQueue = [] ∧ Loaded (call 9 3 [2, 0, 0]) :=
  ⟨rfl, rfl, loaded_three⟩

/-- `LiteralStreamsRoundTrip`: a text of one character, and the empty text. -/
theorem witness_LiteralStreamsRoundTrip :
    let s := call 9 3 [0, 0, 1, 0, 0, 0, 0, 0, 1]
    let t := call 9 3 []
    (AllPrintable [65] ∧ assemble s.ob s.lb (strTokens [65]) = some (bits [0, 0, 1, 0, 0, 0, 0, 0, 1]) ∧
      s.n = (bits [0, 0, 1, 0, 0, 0, 0, 0, 1]).length ∧
      Memory.readRun s.strm 0 s.n = some (bits [0, 0, 1, 0, 0, 0, 0, 0, 1])) ∧
    (AllPrintable [] ∧ assemble t.ob t.lb (strTokens []) = some [] ∧ t.n = ([] : List Symbol).length ∧
      Memory.readRun t.strm 0 t.n = some []) := by decide

/-- `AssembledProgramsRunTokenByToken`: a literal and a copy of it, as an assembled program and as a stream. -/
theorem witness_AssembledProgramsRunTokenByToken :
    let s := call 1 1 [0, 0, 1, 0, 0, 0, 0, 0, 1, 1, 1, 1]
    let syms := bits [0, 0, 1, 0, 0, 0, 0, 0, 1, 1, 1, 1]
    assemble s.ob s.lb [.lit 65, .bref 1 1] = some syms ∧ [Instr.lit 65, .bref 1 1] ≠ [] ∧
      ReadsAs Config.decided.cls s.ob s.lb [.lit 65, .bref 1 1] syms ∧
      s.n = syms.length ∧ Memory.readRun s.strm 0 s.n = some syms :=
  ⟨by decide, by decide, ⟨_, rfl, _, rfl, rfl⟩, by decide, by decide⟩

/-- `CallsAreAPureFunction`: two blocks that differ in everything a call does not read. -/
theorem witness_CallsAreAPureFunction :
    let a := call 1 1 [0, 0, 1, 0, 0, 0, 0, 0, 1]
    let b := { callWith 1 1 [0, 0, 1, 0, 0, 0, 0, 0, 1, 1, 1] [66, 66] with strmLen := 9, pos := 7, result := .incLit }
    b.strmLen = a.strmLen ∧ b.cfgOb = a.cfgOb ∧ b.cfgLb = a.cfgLb ∧
      (∀ k, k < a.n → Memory.read b.strm k = Memory.read a.strm k) ∧
      ∃ t, decodeCall a = .next t ∧ decide (t.out = [65]) = true :=
  ⟨rfl, rfl, rfl, by decide, exists_next (by decide)⟩

/-- `CutAtTheErrorGivesTheSameResult`: a literal and a back-reference cut short. -/
theorem witness_CutAtTheErrorGivesTheSameResult :
    ∃ t, decodeCall (call 2 2 [0, 0, 1, 0, 0, 0, 0, 0, 1, 1, 1, 0]) = .next t ∧
      decide (t.result ≠ .ok ∧ t.errPos = 10 ∧ t.out = [65]) = true := exists_next (by decide)

/-- `PrefixStreamsGivePrefixOutputs`: the whole stream, and a cut inside its second token. -/
theorem witness_PrefixStreamsGivePrefixOutputs :
    let s := call 1 1 [0, 0, 1, 0, 0, 0, 0, 0, 1, 1, 1, 1]
    10 ≤ s.n ∧ 12 ≤ s.n ∧ ∃ t, decodeCall s = .next t ∧ decide (t.out = [65, 65]) = true :=
  ⟨by decide, by decide, exists_next (by decide)⟩

/-- `HostOperationsComeFirst`: an operation in a running call, and an idle block. -/
theorem witness_HostOperationsComeFirst :
    (pending .busy [.readReg .status]).hostQueue = [.readReg .status] ∧ HostOp.readReg .status ≠ .pass ∧
      State.reset.hostQueue = [] ∧ State.reset.phase ≠ .busy := by decide

/-- `StartInitialisesTheCall`: a second call, at the largest values; and a width above the largest. -/
theorem witness_StartInitialisesTheCall :
    let s := { pending .done [.writeReg .ctrl 1] with cfgOb := 31, cfgLb := 31, strmLen := 2 ^ 32 - 1 }
    let t := { pending .done [.writeReg .ctrl 1] with cfgOb := 32 }
    let c := Config.decided
    (s.hostQueue = [.writeReg .ctrl 1] ∧ 1 % 2 = 1 ∧ s.phase ≠ .busy ∧
      (s.ob ≤ c.obMax ∧ s.lb ≤ c.lbMax ∧ s.n ≤ c.strmCap)) ∧
    (t.hostQueue = [.writeReg .ctrl 1] ∧ t.phase ≠ .busy ∧
      ¬ (t.ob ≤ c.obMax ∧ t.lb ≤ c.lbMax ∧ t.n ≤ c.strmCap)) := by decide

/-- `StartIsIgnoredWhileBusy`: 1 while a call runs, and 2 between calls. -/
theorem witness_StartIsIgnoredWhileBusy :
    ((pending .busy [.writeReg .ctrl 1]).hostQueue = [.writeReg .ctrl 1] ∧
      (pending .busy [.writeReg .ctrl 1]).phase = .busy) ∧
    ((pending .done [.writeReg .ctrl 2]).hostQueue = [.writeReg .ctrl 2] ∧ 2 % 2 = 0) := by decide

/-- `BusyHostAccessIsRefused`: a read of `POS`. -/
theorem witness_BusyHostAccessIsRefused :
    (pending .busy [.readReg .pos]).phase = .busy ∧
      (pending .busy [.readReg .pos]).hostQueue = [.readReg .pos] ∧ HostOp.readReg .pos ≠ .pass ∧
      HostOp.readReg .pos ≠ .hardReset ∧ HostOp.readReg .pos ≠ .readReg .status ∧
      (∀ w, HostOp.readReg .pos ≠ .writeReg .ctrl w) := ⟨rfl, rfl, nofun, nofun, nofun, nofun⟩

/-- `ConfigurationWritesTakeTheirField`: each register, with the widest value. -/
theorem witness_ConfigurationWritesTakeTheirField :
    (pending .idle [.writeReg .cfgOb 31]).phase ≠ .busy ∧
      (pending .idle [.writeReg .cfgOb 31]).hostQueue = [.writeReg .cfgOb 31] ∧
      (pending .idle [.writeReg .cfgLb 31]).hostQueue = [.writeReg .cfgLb 31] ∧
      (pending .idle [.writeReg .strmLen 0xFFFFFFFF]).hostQueue = [.writeReg .strmLen 0xFFFFFFFF] := by decide

/-- `ConfigureLoadStartBeginsTheCall`: a stream of two symbols, and one operation after the start. -/
theorem witness_ConfigureLoadStartBeginsTheCall :
    let s := pending .done (configureOps 9 3 ++ loadOps (bits [2, 1]) ++ startOps ++ [.pass])
    s.phase ≠ .busy ∧ (bits [2, 1]).length < 2 ^ 32 ∧
      s.hostQueue = configureOps 9 3 ++ loadOps (bits [2, 1]) ++ startOps ++ [.pass] := by decide

/-- `RegisterReadsReturnTheirValue`: another register between calls, and `STATUS` while a call runs. -/
theorem witness_RegisterReadsReturnTheirValue :
    ((pending .done [.readReg .outLen]).hostQueue = [.readReg .outLen] ∧
      (pending .done [.readReg .outLen]).phase ≠ .busy) ∧
    (pending .busy [.readReg .status]).hostQueue = [.readReg .status] := by decide

/-- `RegisterMap`: an ended call that meets the invariant, at the decided widths. -/
theorem witness_RegisterMap :
    Config.decided.wf ∧ Inv Config.decided { callWith 2 2 [] [65] with phase := .done, pos := 9 } :=
  ⟨⟨by decide, by decide⟩, by decide, by decide, by decide, by decide, by decide, by decide, by decide, ⟨[], rfl⟩,
    (fun h => nomatch h), (fun h => nomatch h), fun _ => ⟨fun _ => rfl, fun h => absurd rfl h⟩⟩

/-- `StatusShowsPhaseAndResult`: an ended call and a running one. -/
theorem witness_StatusShowsPhaseAndResult :
    (pending .done []).phase = .done ∧ (pending .busy []).phase ≠ .done := by decide

/-- `OutputIsReadBelowItsLength`: the last byte, the index behind it, and `READ_RESULT` in each phase. -/
theorem witness_OutputIsReadBelowItsLength :
    let s := { pending .done [.readOut 1] with out := [65, 66] }
    let t := { pending .done [.readOut 2] with out := [65, 66] }
    let u := { pending .done (readResultOps ++ [.pass]) with out := [65, 66] }
    (s.phase ≠ .busy ∧ s.hostQueue = [.readOut 1] ∧ s.out[1]? = some 66) ∧
    (t.phase ≠ .busy ∧ t.hostQueue = [.readOut 2] ∧ t.out.length ≤ 2) ∧
    (u.hostQueue = readResultOps ++ [.pass] ∧ u.phase = .done ∧ u.out.length < 2 ^ 64) ∧
    ((pending .idle readResultOps).hostQueue = readResultOps ++ [] ∧ (pending .idle readResultOps).phase = .idle) ∧
    (pending .busy readResultOps).phase = .busy := by decide

/-- `HostWritesAndReadsTheStream`: the last index of the space, written and read; the index at the stream's end. -/
theorem witness_HostWritesAndReadsTheStream :
    let a := 2 ^ 32 - 2
    let s := pending .idle [.writeStrm a oneSymbol]
    let t := { pending .idle [.readStrm a] with strmLen := 0xFFFFFFFF, strm := [(a, oneSymbol)] }
    let u := { pending .idle [.readStrm 1] with strmLen := 1, strm := [(0, oneSymbol), (1, oneSymbol)] }
    (s.phase ≠ .busy ∧ a < Config.decided.strmCap ∧ s.hostQueue = [.writeStrm a oneSymbol]) ∧
    (t.phase ≠ .busy ∧ t.hostQueue = [.readStrm a] ∧ a < t.n ∧ Memory.read t.strm a = some oneSymbol) ∧
    (u.phase ≠ .busy ∧ u.hostQueue = [.readStrm 1] ∧ u.n ≤ 1) := by decide

/-- `HardwareResetAtAnyTime`: in a running call. -/
theorem witness_HardwareResetAtAnyTime :
    (pending .busy [.hardReset, .pass]).hostQueue = .hardReset :: [.pass] := rfl

/-- `EndedCallsAreFrozen`: a read, a start and a reset after the end. -/
theorem witness_EndedCallsAreFrozen :
    (pending .done []).phase = .done ∧
      (∃ t, step (pending .done [.readReg .status]) = .next t ∧ decide (t.phase = .done) = true) ∧
      (∃ t, step (pending .done [.writeReg .ctrl 1]) = .next t ∧ decide (t.phase = .busy) = true) ∧
      (∃ t, step (pending .done [.hardReset]) = .next t ∧ decide (t.phase = .idle) = true) :=
  ⟨rfl, exists_next (by decide), exists_next (by decide), exists_next (by decide)⟩

/-- `RunningCallsFreezeTheirInput`: a step of the core in a running call. -/
theorem witness_RunningCallsFreezeTheirInput :
    (call 9 3 [2, 2]).phase = .busy ∧
      (∃ t, step (call 9 3 [2, 2]) = .next t ∧ decide (t.pos = 1) = true) ∧
      (∀ rest, (call 9 3 [2, 2]).hostQueue ≠ .hardReset :: rest) :=
  ⟨rfl, exists_next (by decide), fun _ h => nomatch h⟩

/-- `OutputIsAppendOnly`: a step that keeps the output, one that starts a call, and a reset. -/
theorem witness_OutputIsAppendOnly :
    (∃ t, step (callWith 9 3 [0, 0, 1, 0, 0, 0, 0, 0, 1] [66]) = .next t ∧ decide (t.out = [66, 65]) = true) ∧
      (∃ t, step { pending .done [.writeReg .ctrl 1] with out := [66] } = .next t ∧ decide (t.out = []) = true) ∧
      (∃ t, step { pending .busy [.hardReset] with out := [66] } = .next t ∧ decide (t.out = []) = true) :=
  ⟨exists_next (by decide), exists_next (by decide), exists_next (by decide)⟩

/-- `PhaseChangesOnlyAsTheHandshakeSays`: each change of phase, and a step inside a call. -/
theorem witness_PhaseChangesOnlyAsTheHandshakeSays :
    (∃ t, step (pending .idle [.writeReg .ctrl 1]) = .next t ∧ decide (t.phase = .busy) = true) ∧
      (∃ t, step (call 9 3 [2]) = .next t ∧ decide (t.phase = .done) = true) ∧
      (∃ t, step (pending .idle []) = .next t ∧ decide (t.phase = .idle) = true) ∧
      (∃ t, step (pending .busy [.hardReset]) = .next t ∧ decide (t.phase = .idle) = true) ∧
      (∃ t, step (call 9 3 [2, 2]) = .next t ∧ decide (t.phase = .busy) = true) :=
  ⟨exists_next (by decide), exists_next (by decide), exists_next (by decide), exists_next (by decide),
    exists_next (by decide)⟩

end Sys2Proof.Tests
end

section
/-! SUPPORT. The register map: what a read returns by its name, and that no reachable value is cut to its register. -/

namespace Sys2Proof.Machine

theorem regRead_cfgOb (c : Config) (s : State) :
    regRead c .cfgOb s = s.ob % 2 ^ Nat.clog 2 (c.obMax + 1) := by
  rw [← fieldWidth_eq_clog]; rfl

theorem regRead_cfgLb (c : Config) (s : State) :
    regRead c .cfgLb s = s.lb % 2 ^ Nat.clog 2 (c.lbMax + 1) := by
  rw [← fieldWidth_eq_clog]; rfl

/-- A number within the capacity of `STRM` fits the registers of `POSW` bits (R6). -/
theorem lt_two_pow_posw_of_wf {c : Config} (hc : c.wf) {v : Nat} (h : v ≤ c.strmCap) : v < 2 ^ c.posw :=
  Nat.lt_of_le_of_lt h hc.1

/-- The output fits `OUT_LEN`: the whole stream emits at most what R138 says (R6). -/
theorem Inv.out_length_lt {c : Config} {s : State} (hi : Inv c s) (hc : c.wf) : s.out.length < 2 ^ c.lenw :=
  calc s.out.length ≤ s.pos * tokenOutputBound c.lbMax := hi.out_range
    _ ≤ c.strmCap * tokenOutputBound c.lbMax := Nat.mul_le_mul_right _ hi.pos_range
    _ < 2 ^ c.lenw := hc.2

/-- Every register is wide enough for its value: the widths by the configuration's range, the positions by the
capacity of `STRM`, the lengths by the output bound, since the window is a part of the output. -/
theorem Inv.regValue_lt {c : Config} {s : State} (hi : Inv c s) (hc : c.wf) (r : Reg) :
    regValue r s < 2 ^ r.width c := by
  obtain ⟨hob, hlb, hn⟩ := configInRange_iff.1 hi.config
  cases r with
  | ctrl => exact Nat.two_pow_pos _
  | status => exact statusWord_lt s
  | cfgOb => exact lt_two_pow_fieldWidth hob
  | cfgLb => exact lt_two_pow_fieldWidth hlb
  | strmLen => exact lt_two_pow_posw_of_wf hc hn
  | pos => exact lt_two_pow_posw_of_wf hc hi.pos_range
  | errPos => exact lt_two_pow_posw_of_wf hc hi.errPos_range
  | outLen => exact hi.out_length_lt hc
  | winLen => exact Nat.lt_of_le_of_lt hi.win_suffix.length_le (hi.out_length_lt hc)

/-- In a state that meets the invariant a register is read whole. -/
theorem Inv.regRead_eq {c : Config} {s : State} (hi : Inv c s) (hc : c.wf) (r : Reg) :
    regRead c r s = regValue r s :=
  narrow_of_lt (hi.regValue_lt hc r)

/-- Settles O52: the table and the narrowed reads by definition, the whole reads by `Inv.regRead_eq`. -/
theorem registerMap : Obligations.RegisterMap := by
  refine ⟨⟨rfl, rfl, rfl, rfl, rfl, rfl, rfl, rfl, rfl⟩, fun c s => ?_, fun c s hc hi => ?_, decided_wf⟩
  · exact ⟨regRead_ctrl c s, narrow_lt c .status _, regRead_cfgOb c s, regRead_cfgLb c s, rfl, rfl, rfl, rfl, rfl⟩
  · exact ⟨hi.regRead_eq hc .cfgOb, hi.regRead_eq hc .cfgLb, hi.regRead_eq hc .strmLen, hi.regRead_eq hc .pos,
      hi.regRead_eq hc .errPos, hi.regRead_eq hc .outLen, hi.regRead_eq hc .winLen⟩

end Sys2Proof.Machine
end

section
/-! SUPPORT. A running call: what the host can still do (R142), and that the input of the call stays (R10, R52). -/

namespace Sys2Proof.Machine

/-- While a call runs, a step of the host leaves the block alone, resets it, or only receives a reply (R142). -/
theorem hostStep_busy_cases {c : Config} {op : HostOp} {s t : State} (hb : s.phase = .busy)
    (h : hostStep c op s = .next t) :
    t = s ∨ (op = .hardReset ∧ t = hardReset s) ∨ ∃ r, t = reply r s := by
  rcases hostStep_cases h with ⟨e, _⟩ | hr | ⟨r, more, e, hm⟩ | ⟨_, _, _, hn, _⟩ | ⟨hn, _⟩ | ⟨hn, _⟩ | ⟨hn, _⟩ | ⟨hn, _⟩
  · exact .inl e
  · exact .inr (.inl hr)
  · obtain rfl : more = [] := hm.resolve_right (by simp [hb])
    exact .inr (.inr ⟨r, e⟩)
  all_goals exact absurd hb hn

/-- What is fixed during a call (R10), the stream, its length and the widths, is the same in two states. -/
def SameInput (s t : State) : Prop :=
  t.strm = s.strm ∧ t.strmLen = s.strmLen ∧ t.cfgOb = s.cfgOb ∧ t.cfgLb = s.cfgLb

theorem SameForTheHost.sameInput {s t : State} (h : SameForTheHost s t) : SameInput s t := by
  obtain ⟨hs, hn, ho, hl, _⟩ := h
  exact ⟨hs, hn, ho, hl⟩

/-- No token changes the input (R52). -/
theorem coreStep_sameInput {s t : State} (h : coreStep Config.decided s = .next t) : SameInput s t :=
  (coreStep_same h).1.sameInput

/-- No step of the host but a hardware reset changes the input of a running call (R208). -/
theorem hostStep_busy_sameInput {c : Config} {op : HostOp} {s t : State} (hb : s.phase = .busy)
    (hr : op ≠ .hardReset) (h : hostStep c op s = .next t) : SameInput s t := by
  rcases hostStep_busy_cases hb h with rfl | ⟨rfl, _⟩ | ⟨r, rfl⟩
  · exact ⟨rfl, rfl, rfl, rfl⟩
  · exact absurd rfl hr
  · exact ⟨reply_strm r s, reply_strmLen r s, reply_cfgOb r s, reply_cfgLb r s⟩

/-- Settles O58, by whose step it is: `coreStep_sameInput` for the core, `hostStep_busy_sameInput` for the host. -/
theorem runningCallsFreezeTheirInput : Obligations.RunningCallsFreezeTheirInput := by
  intro s t hb h hr
  rcases stepIn_cases h with ⟨_, hn, _⟩ | ⟨_, _, hn, _⟩ | ⟨_, _, hc⟩ | ⟨rest, _, _, hc⟩ | ⟨op, rest, hq, _, hh⟩
  · exact absurd hb hn
  · exact absurd hb hn
  · exact coreStep_sameInput hc
  · exact coreStep_sameInput (s := { s with hostQueue := rest }) hc
  · have hop : op ≠ .hardReset := fun e => hr rest (e ▸ hq)
    exact hostStep_busy_sameInput (s := { s with hostQueue := rest }) hb hop hh

end Sys2Proof.Machine
end

section
/-! SUPPORT. The encoding of the tokens: what the decoder reads behind a flag of each class, a field as a sum of its
symbols' bits (R65), the flag's class as the opcode (R66), and `NOPX` (R64). -/

namespace Sys2Proof

theorem bit_eq_one {cls : Symbol → SymClass} {sym : Symbol} (h : cls sym = .s1) : bit cls sym = 1 := if_pos h

theorem bit_eq_zero {cls : Symbol → SymClass} {sym : Symbol} (h : cls sym ≠ .s1) : bit cls sym = 0 := if_neg h

theorem decode_s0 {cls : Symbol → SymClass} {ob lb : Nat} {flag : Symbol} {body : List Symbol}
    (hk : cls flag = .s0) (h : 8 ≤ body.length) :
    decode cls ob lb (flag :: body) = .ok (.lit (BitVec.ofNat 8 (readBits cls (body.take 8))), body.drop 8) := by
  rw [decode, hk]
  exact if_neg (Nat.not_lt.2 h)

theorem decode_s1 {cls : Symbol → SymClass} {ob lb : Nat} {flag : Symbol} {body : List Symbol}
    (hk : cls flag = .s1) (h : ob + lb ≤ body.length) :
    decode cls ob lb (flag :: body) =
      .ok (.bref (readBits cls (body.take ob)) (readBits cls ((body.drop ob).take lb)), body.drop (ob + lb)) := by
  rw [decode, hk]
  exact if_neg (Nat.not_lt.2 h)

theorem decode_sX {cls : Symbol → SymClass} {flag : Symbol} (hk : cls flag = .sX) (ob lb : Nat)
    (body : List Symbol) : decode cls ob lb (flag :: body) = .ok (.nopx, body) := by
  rw [decode, hk]

/-- The field of `n` symbols from index `p` of a body is the sum that R65 writes. By induction on the width: the first
symbol weighs `2^n` above the `n` symbols behind it. -/
theorem readBits_field_eq_sum (cls : Symbol → SymClass) (body : List Symbol) (p n : Nat)
    (h : p + n ≤ body.length) :
    readBits cls ((body.drop p).take n) =
      ∑ k ∈ Finset.range n, bit cls (body.getD (p + k) 0) * 2 ^ (n - 1 - k) := by
  induction n generalizing p with
  | zero => rfl
  | succ n ih =>
    have hp : p < body.length := by omega
    have hlen : ((body.drop (p + 1)).take n).length = n := by
      rw [List.length_take, List.length_drop]; omega
    have hrest : ∀ k, bit cls (body.getD (p + (k + 1)) 0) * 2 ^ (n + 1 - 1 - (k + 1)) =
        bit cls (body.getD (p + 1 + k) 0) * 2 ^ (n - 1 - k) := fun k => by
      rw [show p + (k + 1) = p + 1 + k by omega, show n + 1 - 1 - (k + 1) = n - 1 - k by omega]
    rw [List.drop_eq_getElem_cons hp, List.take_succ_cons, readBits_cons, hlen, ih (p + 1) (by omega),
      Finset.sum_range_succ', Finset.sum_congr rfl fun k _ => hrest k, Nat.add_comm]
    simp [List.getElem?_eq_getElem hp]

/-- A field of `n` symbols is below `2^n` (R65). -/
theorem readBits_take_lt (cls : Symbol → SymClass) (syms : List Symbol) (n : Nat) :
    readBits cls (syms.take n) < 2 ^ n :=
  Nat.lt_of_lt_of_le (readBits_lt cls _) (Nat.pow_le_pow_right (by decide) (List.length_take_le n syms))

/-- Settles O1: the decoder's answer for each class, its fields rewritten by `readBits_field_eq_sum`. -/
theorem fieldsAreUnsignedMsbFirstSums : Obligations.FieldsAreUnsignedMsbFirstSums := by
  intro cls ob lb flag body field
  have hfield : ∀ p n, p + n ≤ body.length → field p n = readBits cls ((body.drop p).take n) :=
    fun p n h => (readBits_field_eq_sum cls body p n h).symm
  refine ⟨fun _ => ⟨bit_eq_one, bit_eq_zero⟩, fun hk h => ?_, fun hk h => ?_, fun hk => decode_sX hk ob lb body⟩
  · have hlt : readBits cls (body.take 8) < 2 ^ 8 := readBits_take_lt cls body 8
    rw [hfield 0 8 (by omega), List.drop_zero]
    exact ⟨Nat.le_of_lt_succ hlt, _, decode_s0 hk h, by rw [BitVec.toNat_ofNat, Nat.mod_eq_of_lt hlt]⟩
  · rw [hfield 0 ob (by omega), hfield ob lb h, List.drop_zero]
    exact ⟨readBits_take_lt cls _ ob, readBits_take_lt cls _ lb, decode_s1 hk h⟩

/-- What decodes is a token of the flag's class (R66). -/
theorem flagClass_of_decode {cls : Symbol → SymClass} {ob lb : Nat} {flag : Symbol} {body rest : List Symbol}
    {i : Instr} (h : decode cls ob lb (flag :: body) = .ok (i, rest)) : i.flagClass = cls flag := by
  rcases Nat.lt_or_ge body.length (bodyLength ob lb (cls flag)) with hshort | hfull
  · rcases decode_cutShort hshort with ⟨_, hd⟩ | ⟨_, hd⟩ <;> rw [hd] at h <;> cases h
  · obtain ⟨j, hd, hj, _⟩ := decode_complete hfull
    rw [hd] at h
    cases h
    exact hj

/-- Settles O2: `flagClass_of_decode`, and `decode_complete` for a whole body. -/
theorem opcodeIsTheClassOfTheFlag : Obligations.OpcodeIsTheClassOfTheFlag := by
  intro cls ob lb flag body
  refine ⟨fun _ _ => flagClass_of_decode, fun hfull => ?_⟩
  obtain ⟨i, hd, _⟩ := decode_complete hfull
  exact ⟨i, _, hd⟩

namespace Machine

/-- `NOPX` is the flag's cursor advance and nothing else (R87). -/
theorem exec_nopx_eq_takeFlag (s : State) : exec .nopx s = .next (takeFlag s) := rfl

/-- Settles O20: the meaning by `exec_nopx_eq_takeFlag`; the step because the one symbol decodes as `NOPX`. -/
theorem nopxConsumesJustTheFlag : Obligations.NopxConsumesJustTheFlag := by
  refine ⟨exec_nopx_eq_takeFlag, fun s sym hb hq hn hread h0 h1 => ?_⟩
  have hclass : Config.decided.cls sym = .sX := (decided_cls sym).2.2.2 ⟨h0, h1⟩
  have hloaded : ∀ k, k < [sym].length → Memory.read s.strm (s.pos + k) = [sym][k]? := fun k hk => by
    obtain rfl : k = 0 := Nat.lt_one_iff.1 hk
    exact hread
  rw [step_busy hq hb]
  exact coreStep_decoded (syms := [sym]) hn hloaded (decode_sX hclass s.ob s.lb []) (exec_nopx_eq_takeFlag s)

end Machine

end Sys2Proof
end

section
/-! SUPPORT. Streams of whole tokens (R71, R72): the token at the front of a stream on its own symbols, and the run of
the tokens one after another up to the end of the stream (R86, R89). -/

namespace Sys2Proof

/-- Where a token decodes, its body is there (R68). -/
theorem bodyLength_le_of_decode {cls : Symbol → SymClass} {ob lb : Nat} {flag : Symbol} {body rest : List Symbol}
    {i : Instr} (h : decode cls ob lb (flag :: body) = .ok (i, rest)) :
    bodyLength ob lb (cls flag) ≤ body.length := by
  by_contra hshort
  rcases decode_cutShort (Nat.lt_of_not_le hshort) with ⟨_, hd⟩ | ⟨_, hd⟩ <;> rw [hd] at h <;> cases h

/-- The token at the front of a stream reads from its own symbols alone, and these are as many as R61 says. -/
theorem decode_split {cls : Symbol → SymClass} {ob lb : Nat} {syms more : List Symbol} {i : Instr}
    (h : decode cls ob lb syms = .ok (i, more)) :
    ∃ front, syms = front ++ more ∧ decode cls ob lb front = .ok (i, []) ∧
      front.length = tokenLength ob lb i.flagClass := by
  cases syms with
  | nil => cases h
  | cons flag body =>
    have hfull := bodyLength_le_of_decode h
    refine ⟨flag :: body.take (bodyLength ob lb (cls flag)), ?_⟩
    cases hk : cls flag <;> rw [hk] at hfull <;> simp only [bodyLength] at hfull ⊢
    case s0 =>
      have hlen : (body.take 8).length = 8 := List.length_take_of_le hfull
      rw [decode_s0 hk hfull] at h
      cases h
      rw [decode_s0 hk hlen.ge]
      simp [tokenLength, bodyLength, Instr.flagClass, hfull, List.take_take]
    case s1 =>
      have hlen : (body.take (ob + lb)).length = ob + lb := List.length_take_of_le hfull
      rw [decode_s1 hk hfull] at h
      cases h
      rw [decode_s1 hk hlen.ge]
      simp [tokenLength, bodyLength, Instr.flagClass, Nat.add_comm, hfull, List.take_take, List.drop_take]
    case sX =>
      rw [decode_sX hk] at h
      cases h
      exact ⟨rfl, decode_sX hk ob lb _, rfl⟩

namespace Machine

/-- Every token takes at least one symbol of the stream (R61). -/
theorem ReadsAs.length_le {cls : Symbol → SymClass} {ob lb : Nat} {tokens : List Instr} {syms : List Symbol}
    (h : ReadsAs cls ob lb tokens syms) : tokens.length ≤ syms.length := by
  induction tokens generalizing syms with
  | nil => exact Nat.zero_le _
  | cons i rest ih =>
    obtain ⟨more, hd, hrest⟩ := h
    obtain ⟨front, rfl, _, hlen⟩ := decode_split hd
    have hpos := tokenLength_pos ob lb i.flagClass
    have hle := ih hrest
    simp only [List.length_cons, List.length_append]
    omega

/-- The state after complete tokens, one after another. -/
def afterTokens (tokens : List Instr) (s : State) : State := tokens.foldl (fun u i => afterComplete i u) s

@[simp] theorem afterTokens_nil (s : State) : afterTokens [] s = s := rfl

@[simp] theorem afterTokens_cons (i : Instr) (rest : List Instr) (s : State) :
    afterTokens (i :: rest) s = afterTokens rest (afterComplete i s) := rfl

@[simp] theorem afterTokens_errPos (tokens : List Instr) (s : State) : (afterTokens tokens s).errPos = s.errPos := by
  induction tokens generalizing s with
  | nil => rfl
  | cons i rest ih => rw [afterTokens_cons, ih, afterComplete_errPos]

/-- The cursor after whole tokens is behind their last symbol. -/
theorem afterTokens_pos {cls : Symbol → SymClass} {tokens : List Instr} {syms : List Symbol} {s : State}
    (h : ReadsAs cls s.ob s.lb tokens syms) : (afterTokens tokens s).pos = s.pos + syms.length := by
  induction tokens generalizing s syms with
  | nil =>
    obtain rfl : syms = [] := h
    rfl
  | cons i rest ih =>
    obtain ⟨more, hd, hrest⟩ := h
    obtain ⟨front, rfl, _, hlen⟩ := decode_split hd
    rw [afterTokens_cons, ih (s := afterComplete i s) hrest, afterComplete_pos, List.length_append, hlen, Nat.add_assoc]

/-- With the cursor at the end a running call ends `OK` (R86). -/
theorem endOfStreamTest_atEnd {s : State} (hb : s.phase = .busy) (h : s.n ≤ s.pos) : endOfStreamTest s = haltOk s :=
  if_pos ⟨hb, h⟩

/-- With symbols left the call goes on (R86). -/
theorem endOfStreamTest_before {s : State} (h : s.pos < s.n) : endOfStreamTest s = s :=
  if_neg fun ⟨_, hn⟩ => Nat.not_le.2 h hn

/-- One token at the cursor of a running call, whatever stands behind it: the step completes it and tests for the end
of the stream. -/
theorem step_token {s : State} {i : Instr} {front more : List Symbol} (hb : s.phase = .busy) (hq : s.hostQueue = [])
    (hd : decode Config.decided.cls s.ob s.lb front = .ok (i, []))
    (hlen : front.length = tokenLength s.ob s.lb i.flagClass) (hn : s.pos + (front ++ more).length ≤ s.n)
    (hr : ∀ k, k < (front ++ more).length → Memory.read s.strm (s.pos + k) = (front ++ more)[k]?) :
    step s = .next (endOfStreamTest (afterComplete i s)) := by
  rw [List.length_append] at hn hr
  have hfront : ∀ k, k < front.length → Memory.read s.strm (s.pos + k) = front[k]? := fun k hk => by
    rw [hr k (by omega), List.getElem?_append_left hk]
  rw [step_busy hq hb]
  exact coreStep_decoded (by omega) hfront hd (exec_complete (by omega))

/-- A running call over whole tokens, at least one, completes them and ends `OK`, one step each. By induction over the
tokens: the end-of-stream test lets the call go on after each token but the last. -/
theorem run_tokens {tokens : List Instr} {syms : List Symbol} {s : State} (hne : tokens ≠ []) (hb : s.phase = .busy)
    (hq : s.hostQueue = []) (h : ReadsAs Config.decided.cls s.ob s.lb tokens syms) (hn : s.pos + syms.length = s.n)
    (hr : ∀ k, k < syms.length → Memory.read s.strm (s.pos + k) = syms[k]?) :
    runSteps tokens.length s = .next (haltOk (afterTokens tokens s)) := by
  induction tokens generalizing s syms with
  | nil => exact absurd rfl hne
  | cons i rest ih =>
    obtain ⟨more, hd, hrest⟩ := h
    obtain ⟨front, rfl, hfront, hlen⟩ := decode_split hd
    have hstep := step_token hb hq hfront hlen hn.le hr
    rw [List.length_append, hlen] at hn
    rw [List.length_cons, run_next hstep, afterTokens_cons]
    cases rest with
    | nil =>
      obtain rfl : more = [] := hrest
      have hend : (afterComplete i s).n ≤ (afterComplete i s).pos := hn.ge
      rw [endOfStreamTest_atEnd (s := afterComplete i s) hb hend]
      rfl
    | cons j rest =>
      have hmore : 1 ≤ more.length := Nat.le_trans (Nat.succ_pos _) (hrest.length_le)
      have hleft : (afterComplete i s).pos < (afterComplete i s).n := by
        rw [afterComplete_pos, afterComplete_n]; omega
      rw [endOfStreamTest_before hleft]
      refine ih (s := afterComplete i s) (List.cons_ne_nil _ _) hb hq hrest ?_ fun k hk => ?_
      · rw [afterComplete_pos, afterComplete_n]; omega
      · rw [afterComplete_pos, afterComplete_strm, Nat.add_assoc, hr _ (by rw [List.length_append]; omega), ← hlen,
          List.getElem?_append_right (Nat.le_add_right _ _), Nat.add_sub_cancel_left]

/-- A whole call over a stream of whole tokens, at least one: the tokens from the started block on, and `OK`. -/
theorem decodeCall_tokens {tokens : List Instr} {syms : List Symbol} {s : State} (hne : tokens ≠ [])
    (h : ReadsAs Config.decided.cls s.ob s.lb tokens syms) (hn : s.n = syms.length)
    (hr : Memory.readRun s.strm 0 s.n = some syms) :
    decodeCall s = .next (haltOk (afterTokens tokens (startCall { s with hostQueue := [] }))) := by
  obtain ⟨_, hread⟩ := Memory.readRun_eq_some.1 hr
  have hfuel : s.n + 1 = tokens.length + (s.n + 1 - tokens.length) := by
    have hle := h.length_le
    omega
  have hrun := run_tokens (s := startCall { s with hostQueue := [] }) hne rfl rfl h
    ((Nat.zero_add _).trans hn.symm) fun k hk => hread k (hn ▸ hk)
  rw [decodeCall, hfuel]
  exact run_more _ rfl hrun nofun

/-- Settles O29: the two answers of the end-of-stream test, and `decodeCall_tokens` for whole-token streams. -/
theorem endOfStreamEndsTheCallOk : Obligations.EndOfStreamEndsTheCallOk := by
  refine ⟨fun i s t _ he ht => ?_, fun tokens syms s hne h hn hr => ?_⟩
  · rw [he, finishToken_decided]
    exact ⟨fun hend => congrArg _ (endOfStreamTest_atEnd ht hend),
      fun hleft => congrArg _ (endOfStreamTest_before hleft)⟩
  · have hpos := afterTokens_pos (s := startCall { s with hostQueue := [] }) h
    refine ⟨_, decodeCall_tokens hne h hn hr, rfl, rfl, afterTokens_errPos _ _, ?_⟩
    rw [haltOk_pos, hpos, startCall_pos, Nat.zero_add, hn]

end Machine

end Sys2Proof
end

section
/-! SUPPORT. A complete `LIT` (R102): the printable filter as a range, and the whole next state of a kept and of a
dropped byte. -/

namespace Sys2Proof.Machine

/-- Both bounds of the filter are inclusive (R102). -/
theorem printable_iff {code : Byte} : printable code = true ↔ 32 ≤ code.toNat ∧ code.toNat ≤ 126 := by
  simp [printable]

/-- A complete `LIT` of a kept byte. -/
theorem afterComplete_lit_printable {code : Byte} (s : State) (h : printable code = true) :
    afterComplete (.lit code) s = { s with
      pos := s.pos + 9
      out := s.out ++ [code]
      win := keepNewest s.window (s.win ++ [code]) } := by
  have hemit : emitted (.lit code) s.win = [code] := if_pos h
  rw [afterComplete, hemit]
  rfl

/-- A complete `LIT` of a dropped byte: nothing is emitted, and the trim finds a window within its bound. -/
theorem afterComplete_lit_dropped {code : Byte} {s : State} (h : ¬ printable code = true)
    (hw : s.win.length ≤ s.window) : afterComplete (.lit code) s = { s with pos := s.pos + 9 } := by
  have hemit : emitted (.lit code) s.win = [] := if_neg h
  rw [afterComplete, windowAfter_eq hw, hemit, List.append_nil, List.append_nil, keepNewest_of_le hw]
  rfl

/-- Settles O13: `exec_complete` for the 9 symbols, then the filter's two answers. -/
theorem litAppendsPrintableBytesOnly : Obligations.LitAppendsPrintableBytesOnly := by
  intro code s hfit
  rw [← printable_iff, exec_complete (i := .lit code) hfit]
  exact ⟨fun h => congrArg _ (afterComplete_lit_printable s h),
    fun h hw => congrArg _ (afterComplete_lit_dropped h hw)⟩

end Sys2Proof.Machine
end

section
/-! SUPPORT. A complete `BREF` (R110 to R118): cursor, copy and trim as one equation, the two answers of the validity
check, and the copy loop by the test of its index. -/

namespace Sys2Proof.Machine

/-- The flag and the `k` symbols after it (R85, R112). -/
theorem advance_takeFlag (k : Nat) (s : State) : advance k (takeFlag s) = advance (1 + k) s := by
  rw [advance, advance, takeFlag_pos, Nat.add_assoc]
  rfl

/-- A complete `BREF`: the cursor past its 1 + `OB` + `LB` symbols, the copy if the token is valid, and the trim. -/
theorem exec_bref_complete (offset length : Nat) {s : State} (h : s.pos + (1 + s.ob + s.lb) ≤ s.n) :
    exec (.bref offset length) s = .next (trim (copyBytes offset length (advance (1 + s.ob + s.lb) s))) := by
  rw [Nat.add_assoc] at h ⊢
  have hfit : fits (s.ob + s.lb) (takeFlag s) = true := fits_iff.2 (by rwa [takeFlag_pos, takeFlag_n, Nat.add_assoc])
  rw [exec, execBref, if_pos hfit, advance_takeFlag]

theorem copyBytes_of_valid {offset length : Nat} {s : State} (h : offset ≤ s.win.length) (hl : length ≠ 0) :
    copyBytes offset length s = copyLoop (s.win.length - offset) length s :=
  if_pos (brefValid_iff.2 ⟨h, hl⟩)

theorem copyBytes_of_invalid {offset length : Nat} {s : State} (h : offset > s.win.length ∨ length = 0) :
    copyBytes offset length s = s :=
  if_neg fun hv => by
    obtain ⟨ho, hl⟩ := brefValid_iff.1 hv
    omega

/-- A valid complete `BREF` copies from `L0 − offset` and trims once, after the copy (R115, R118). -/
theorem exec_bref_valid {offset length : Nat} {s : State} (h : s.pos + (1 + s.ob + s.lb) ≤ s.n)
    (ho : offset ≤ s.win.length) (hl : length ≠ 0) :
    exec (.bref offset length) s =
      .next (trim (copyLoop (s.win.length - offset) length (advance (1 + s.ob + s.lb) s))) := by
  rw [exec_bref_complete offset length h, copyBytes_of_valid (s := advance _ s) ho hl, advance_win]

/-- A skipped `BREF` changes the cursor only: the trim finds a window within its bound (R114). -/
theorem exec_bref_invalid {offset length : Nat} {s : State} (h : s.pos + (1 + s.ob + s.lb) ≤ s.n)
    (hw : s.win.length ≤ s.window) (hskip : offset > s.win.length ∨ length = 0) :
    exec (.bref offset length) s = .next (advance (1 + s.ob + s.lb) s) := by
  rw [exec_bref_complete offset length h, copyBytes_of_invalid (s := advance _ s) hskip,
    trim_of_le (s := advance _ s) hw]

/-- The copy stops where its index is not in the window as it is now (R116). -/
theorem copyLoop_stops {src : Nat} {s : State} (h : s.win.length ≤ src) (k : Nat) : copyLoop src (k + 1) s = s := by
  rw [copyLoop, List.getElem?_eq_none h]

/-- The byte under the index is appended before the next iteration (R116). -/
theorem copyLoop_appends {src : Nat} {b : Byte} {s : State} (h : s.win[src]? = some b) (k : Nat) :
    copyLoop src (k + 1) s = copyLoop (src + 1) k (append b s) := by
  rw [copyLoop, h]

/-- The first byte a copy appends to the output is the one under its first index. -/
theorem copyLoop_out_first {src k : Nat} {b : Byte} {s : State} (hk : k ≠ 0) (h : s.win[src]? = some b) :
    (copyLoop src k s).out[s.out.length]? = some b := by
  obtain ⟨k, rfl⟩ := Nat.exists_eq_succ_of_ne_zero hk
  rw [copyLoop_appends h, copyLoop_eq]
  simp [append]

/-- Settles O15: `exec_bref_valid`, then the copy loop by the iterations left and by the test of its index. -/
theorem brefCopiesOneByteAtATime : Obligations.BrefCopiesOneByteAtATime :=
  ⟨fun _ _ _ => exec_bref_valid, fun _ _ => rfl, fun _ k _ h => copyLoop_stops h k,
    fun _ k _ _ h => copyLoop_appends h k⟩

/-- Settles O16: the skip by `exec_bref_invalid`; at `offset = |win|` the copy starts at index 0, and distance 0 is
within every window. -/
theorem invalidBrefIsSkipped : Obligations.InvalidBrefIsSkipped := by
  intro offset length s hfit hw
  refine ⟨exec_bref_invalid hfit hw, fun ho hl b hb => ?_, fun hl => brefValid_iff.2 ⟨Nat.zero_le _, hl⟩⟩
  have hstart : s.win.length - offset = 0 := Nat.sub_eq_zero_of_le ho.ge
  refine ⟨_, exec_bref_valid hfit ho.le hl, ?_⟩
  rw [trim_out, hstart]
  exact copyLoop_out_first (s := advance (1 + s.ob + s.lb) s) hl hb

end Sys2Proof.Machine
end

section
/-! SUPPORT. How bytes enter the output and the window (R130, R135): every step adds the same bytes to both, or is a
step of the host that empties both. -/

namespace Sys2Proof.Machine

/-- From `s` to `t` the same bytes enter the output and the window; the window may have lost some of its oldest. -/
def FeedsTogether (s t : State) : Prop := ∃ e, t.out = s.out ++ e ∧ t.win <:+ s.win ++ e

theorem FeedsTogether.of_same {s t : State} (ho : t.out = s.out) (hw : t.win = s.win) : FeedsTogether s t :=
  ⟨[], by rw [ho, List.append_nil], by rw [hw, List.append_nil]⟩

theorem FeedsTogether.out_prefix {s t : State} (h : FeedsTogether s t) : s.out <+: t.out := by
  obtain ⟨e, ho, _⟩ := h
  exact ⟨e, ho.symm⟩

/-- Only a trim takes bytes from the window, and it takes the oldest; `NOPX`, which does not trim, emits nothing. -/
theorem windowAfter_suffix (i : Instr) (bound : Nat) (w : List Byte) :
    windowAfter i bound w (emitted i w) <:+ w ++ emitted i w := by
  cases i with
  | lit code => exact keepNewest_suffix bound _
  | bref offset length => exact keepNewest_suffix bound _
  | nopx => exact ⟨[], (List.append_nil w).symm⟩

theorem coreStep_feedsTogether {s t : State} (h : coreStep Config.decided s = .next t) : FeedsTogether s t := by
  rcases coreStep_cases h with ⟨_, rfl⟩ | ⟨_, i, _, _, _, _, _, rfl⟩ | ⟨_, i, _, _, _, _, _, rfl⟩
  · exact .of_same (raiseError_out _ _ s) (raiseError_win _ _ s)
  · obtain ⟨_, ho, hw, _⟩ := endOfStreamTest_same (afterComplete i s)
    exact ⟨emitted i s.win, ho, hw ▸ windowAfter_suffix i s.window s.win⟩
  · exact .of_same rfl rfl

/-- The operations of the host that empty the output and the window when they are accepted: a `START` outside a running
call (R191) and a hardware reset (R190). -/
def EmptiesBoth (op : HostOp) (s : State) : Prop :=
  (s.phase ≠ .busy ∧ ∃ w, op = .writeReg .ctrl w ∧ w % 2 = 1) ∨ op = .hardReset

theorem hostStep_feedsTogether_or_empties {c : Config} {op : HostOp} {s t : State} (h : hostStep c op s = .next t) :
    FeedsTogether s t ∨ (t.out = [] ∧ t.win = [] ∧ EmptiesBoth op s) := by
  rcases hostStep_cases h with ⟨rfl, _⟩ | ⟨hop, rfl⟩ | ⟨r, more, rfl, _⟩ | ⟨w, hop, hw, hb, _, rfl⟩ |
    ⟨_, _, _, rfl⟩ | ⟨_, _, _, rfl⟩ | ⟨_, _, _, rfl⟩ | ⟨_, _, _, _, rfl⟩
  case inr.inl => exact .inr ⟨hardReset_out s, hardReset_win s, .inr hop⟩
  case inr.inr.inr.inl => exact .inr ⟨startCall_out s, startCall_win s, .inl ⟨hb, w, hop, hw⟩⟩
  all_goals exact .inl (.of_same rfl rfl)

/-- All that a step does to the output and the window. -/
theorem step_feedsTogether_or_empties {s t : State} (h : step s = .next t) :
    FeedsTogether s t ∨ (t.out = [] ∧ t.win = [] ∧ ∃ op rest, s.hostQueue = op :: rest ∧ EmptiesBoth op s) := by
  rcases stepIn_cases h with ⟨_, _, rfl⟩ | ⟨_, _, _, rfl⟩ | ⟨_, _, hc⟩ | ⟨rest, _, _, hc⟩ | ⟨op, rest, hq, _, hh⟩
  · exact .inl (.of_same rfl rfl)
  · exact .inl (.of_same rfl rfl)
  · exact .inl (coreStep_feedsTogether hc)
  · exact .inl (coreStep_feedsTogether (s := { s with hostQueue := rest }) hc)
  · exact (hostStep_feedsTogether_or_empties (s := { s with hostQueue := rest }) hh).imp_right
      fun ⟨ho, hw, he⟩ => ⟨ho, hw, op, rest, hq, he⟩

/-- Settles O9: `append` by its fields, and every step by `step_feedsTogether_or_empties`. -/
theorem appendFeedsOutputAndWindow : Obligations.AppendFeedsOutputAndWindow := by
  refine ⟨fun b s => ⟨rfl, ?_⟩, fun s t h => ?_⟩
  · rw [append_out, List.length_append, List.length_singleton]
  · rcases step_feedsTogether_or_empties h with hf | ⟨ho, hw, _⟩
    · exact .inr hf
    · exact .inl ⟨ho, hw⟩

/-- Settles O59: bytes that enter go behind those already there, and only a `START` or a reset empties the output. -/
theorem outputIsAppendOnly : Obligations.OutputIsAppendOnly := by
  intro s t h
  rcases step_feedsTogether_or_empties h with hf | ⟨ho, _, op, rest, hq, ⟨hb, w, rfl, hw⟩ | rfl⟩
  · exact .inl hf.out_prefix
  · exact .inr (.inl ⟨ho, hb, w, rest, hq, hw⟩)
  · exact .inr (.inr ⟨ho, rest, hq⟩)

end Sys2Proof.Machine
end

section
/-! SUPPORT. Runs without the host: the host's part of the state stays, and what the block holds at or past `N` and
what the host has read do not matter (R149). -/

namespace Sys2Proof.Machine

/-- A run that answers takes a step that answers and goes on from there. -/
theorem run_succ_next {k : Nat} {s t : State} (h : runSteps (k + 1) s = .next t) :
    ∃ u, step s = .next u ∧ runSteps k u = .next t := by
  rw [run_succ] at h
  cases hs : step s with
  | next u => exact ⟨u, rfl, by rwa [hs] at h⟩
  | fault r => rw [hs] at h; cases h
  | refused r => rw [hs] at h; cases h

/-- With no host operation pending a step is the core's, or nothing happens. -/
theorem step_nil_cases {s t : State} (hq : s.hostQueue = []) (h : step s = .next t) :
    (s.phase ≠ .busy ∧ t = s) ∨ (s.phase = .busy ∧ coreStep Config.decided s = .next t) := by
  by_cases hb : s.phase = .busy
  · rw [step_busy hq hb] at h
    exact .inr ⟨hb, h⟩
  · rw [step_idle hq hb] at h
    exact .inl ⟨hb, (Host.Outcome.next.inj h).symm⟩

theorem SameForTheHost.refl (s : State) : SameForTheHost s s := ⟨rfl, rfl, rfl, rfl, rfl, rfl⟩

theorem SameForTheHost.trans {s t u : State} (h : SameForTheHost s t) (h' : SameForTheHost t u) :
    SameForTheHost s u := by
  obtain ⟨hs, hn, ho, hl, hq, hr⟩ := h
  obtain ⟨hs', hn', ho', hl', hq', hr'⟩ := h'
  exact ⟨hs'.trans hs, hn'.trans hn, ho'.trans ho, hl'.trans hl, hq'.trans hq, hr'.trans hr⟩

theorem SameForTheHost.hostQueue_eq {s t : State} (h : SameForTheHost s t) : t.hostQueue = s.hostQueue := by
  obtain ⟨_, _, _, _, hq, _⟩ := h
  exact hq

theorem step_nil_sameForTheHost {s t : State} (hq : s.hostQueue = []) (h : step s = .next t) :
    SameForTheHost s t := by
  rcases step_nil_cases hq h with ⟨_, rfl⟩ | ⟨_, hc⟩
  · exact .refl t
  · exact (coreStep_same hc).1

/-- Steps of the core alone leave the host's part of the state as it is. -/
theorem run_sameForTheHost {k : Nat} {s t : State} (hq : s.hostQueue = []) (h : runSteps k s = .next t) :
    SameForTheHost s t := by
  induction k generalizing s with
  | zero =>
    obtain rfl := Host.Outcome.next.inj h
    exact .refl s
  | succ k ih =>
    obtain ⟨u, hu, hrun⟩ := run_succ_next h
    have hsu := step_nil_sameForTheHost hq hu
    exact hsu.trans (ih (hsu.hostQueue_eq.trans hq) hrun)

/-- The block as it is, but for what a call is not a function of: it holds `m` as its stream, and the host has
read `seen`. -/
def holding (m : Memory) (seen : List HostReply) (s : State) : State := { s with strm := m, hostSeen := seen }

/-- A memory holds the same symbols below `N` as a block does. -/
def AgreesBelowN (m : Memory) (s : State) : Prop := ∀ k, k < s.n → Memory.read m k = Memory.read s.strm k

theorem AgreesBelowN.of_sameForTheHost {m : Memory} {s t : State} (hm : AgreesBelowN m s) (h : SameForTheHost s t) :
    AgreesBelowN m t := by
  obtain ⟨hs, hn, _⟩ := h
  intro k hk
  rw [hs]
  exact hm k (Nat.lt_of_lt_of_eq hk hn)

theorem endOfStreamTest_holding (m : Memory) (seen : List HostReply) (s : State) :
    endOfStreamTest (holding m seen s) = holding m seen (endOfStreamTest s) := by
  rcases endOfStreamTest_cases s with ⟨e, hb, hn⟩ | ⟨e, hleft⟩
  · rw [e]
    exact endOfStreamTest_atEnd (s := holding m seen s) hb hn
  · rw [e]
    exact if_neg fun ⟨hb, hn⟩ => Nat.not_le.2 (hleft hb) hn

/-- A step of the core reads the stream below `N` only, and commutes with replacing the rest. -/
theorem coreStep_holding {m : Memory} (seen : List HostReply) {s t : State} (hm : AgreesBelowN m s)
    (h : coreStep Config.decided s = .next t) :
    coreStep Config.decided (holding m seen s) = .next (holding m seen t) := by
  rcases coreStep_spec Config.decided s with ⟨hn, he⟩ | ⟨_, he, _⟩ |
    ⟨flag, i, syms, _, _, _, hfit, _, hrun, hd, he⟩ | ⟨flag, i, hn, hread, hflag, hi, hshort, he⟩ <;> rw [he] at h
  · cases h
    exact coreStep_noRoom (s := holding m seen s) hn
  · cases h
  · cases h
    obtain ⟨hlen, hsyms⟩ := Memory.readRun_eq_some.1 hrun
    rw [← endOfStreamTest_holding]
    refine coreStep_decoded (s := holding m seen s) (syms := syms) (hlen ▸ hfit) (fun k hk => ?_) hd
      (exec_complete (s := holding m seen s) hfit)
    exact (hm (s.pos + k) (by omega)).trans (hsyms k (hlen ▸ hk))
  · cases h
    exact coreStep_cutShort (s := holding m seen s) hn ((hm s.pos hn).trans hread) hflag hi hshort

theorem step_holding {m : Memory} (seen : List HostReply) {s t : State} (hq : s.hostQueue = [])
    (hm : AgreesBelowN m s) (h : step s = .next t) : step (holding m seen s) = .next (holding m seen t) := by
  rcases step_nil_cases hq h with ⟨hb, rfl⟩ | ⟨hb, hc⟩
  · exact step_idle (s := holding m seen t) hq hb
  · rw [step_busy (s := holding m seen s) hq hb]
    exact coreStep_holding seen hm hc

/-- Runs of the core from two blocks that agree below `N` stay step for step the same. -/
theorem run_holding {k : Nat} {m : Memory} (seen : List HostReply) {s t : State} (hq : s.hostQueue = [])
    (hm : AgreesBelowN m s) (h : runSteps k s = .next t) :
    runSteps k (holding m seen s) = .next (holding m seen t) := by
  induction k generalizing s with
  | zero =>
    cases h
    rfl
  | succ k ih =>
    obtain ⟨u, hu, hrun⟩ := run_succ_next h
    have hsu := step_nil_sameForTheHost hq hu
    rw [run_next (step_holding seen hq hm hu)]
    exact ih (hsu.hostQueue_eq.trans hq) (hm.of_sameForTheHost hsu) hrun

/-- A start clears whatever the last call left: with the same `N` and widths, only the stream and what the host has
read can differ (R191). -/
theorem startCall_eq_holding {a b : State} (hn : b.strmLen = a.strmLen) (ho : b.cfgOb = a.cfgOb)
    (hl : b.cfgLb = a.cfgLb) :
    startCall { b with hostQueue := [] } = holding b.strm b.hostSeen (startCall { a with hostQueue := [] }) := by
  simp only [startCall, holding, hn, ho, hl]

/-- Settles O41: `run_sameForTheHost` for what stays, `run_holding` from the two started blocks for what the call
leaves. -/
theorem callsAreAPureFunction : Obligations.CallsAreAPureFunction := by
  intro a b t hn ho hl hread ht
  obtain ⟨hstrm, hlen, hob, hlb, _, hseen⟩ := run_sameForTheHost rfl ht
  refine ⟨hstrm, hlen, hob, hlb, hseen, holding b.strm b.hostSeen t, ?_, rfl, rfl, rfl, rfl, rfl, rfl⟩
  rw [decodeCall, startCall_eq_holding hn ho hl, State.n, hn]
  exact run_holding b.hostSeen rfl hread ht

end Sys2Proof.Machine
end

section
/-! SUPPORT. The phases (R144, R148, R171): what each step does to phase, result and error position, and which steps
change the phase. -/

namespace Sys2Proof.Machine

/-- Phase, result and error position (R18) are the same in two states. -/
def SameStatus (s t : State) : Prop := t.phase = s.phase ∧ t.result = s.result ∧ t.errPos = s.errPos

/-- A step of the host keeps the status, or is a hardware reset, or an accepted `START`. -/
theorem hostStep_status_cases {c : Config} {op : HostOp} {s t : State} (h : hostStep c op s = .next t) :
    SameStatus s t ∨ (op = .hardReset ∧ t.phase = .idle) ∨
    ((∃ w, op = .writeReg .ctrl w ∧ w % 2 = 1) ∧ s.phase ≠ .busy ∧ t.phase = .busy) := by
  rcases hostStep_cases h with ⟨rfl, _⟩ | ⟨hop, rfl⟩ | ⟨r, more, rfl, _⟩ | ⟨w, hop, hw, hb, _, rfl⟩ |
    ⟨_, _, _, rfl⟩ | ⟨_, _, _, rfl⟩ | ⟨_, _, _, rfl⟩ | ⟨_, _, _, _, rfl⟩
  case inr.inl => exact .inr (.inl ⟨hop, hardReset_phase s⟩)
  case inr.inr.inr.inl => exact .inr (.inr ⟨⟨w, hop, hw⟩, hb, startCall_phase s⟩)
  all_goals exact .inl ⟨rfl, rfl, rfl⟩

/-- A step of the core in a running call keeps the status or ends the call. -/
theorem coreStep_status_cases {s t : State} (hb : s.phase = .busy) (h : coreStep Config.decided s = .next t) :
    SameStatus s t ∨ t.phase = .done :=
  (coreStep_phase hb h).imp_left fun ⟨hp, hr, he, _⟩ => ⟨hp.trans hb.symm, hr, he⟩

/-- All that a step does to the status: it keeps it, or the core ends the call, or the host resets the block, or the
host starts a call. -/
theorem step_status_cases {s t : State} (h : step s = .next t) :
    SameStatus s t ∨
    (s.phase = .busy ∧ t.phase = .done ∧ (s.hostQueue = [] ∨ ∃ rest, s.hostQueue = .pass :: rest)) ∨
    (t.phase = .idle ∧ ∃ rest, s.hostQueue = .hardReset :: rest) ∨
    (s.phase ≠ .busy ∧ t.phase = .busy ∧ ∃ w rest, s.hostQueue = .writeReg .ctrl w :: rest ∧ w % 2 = 1) := by
  rcases stepIn_cases h with ⟨_, _, rfl⟩ | ⟨_, _, _, rfl⟩ | ⟨hq, hb, hc⟩ | ⟨rest, hq, hb, hc⟩ | ⟨op, rest, hq, _, hh⟩
  · exact .inl ⟨rfl, rfl, rfl⟩
  · exact .inl ⟨rfl, rfl, rfl⟩
  · exact (coreStep_status_cases hb hc).imp_right fun hd => .inl ⟨hb, hd, .inl hq⟩
  · exact (coreStep_status_cases (s := { s with hostQueue := rest }) hb hc).imp_right
      fun hd => .inl ⟨hb, hd, .inr ⟨rest, hq⟩⟩
  · rcases hostStep_status_cases hh with hsame | ⟨rfl, hi⟩ | ⟨⟨w, rfl, hw⟩, hn, hb⟩
    · exact .inl hsame
    · exact .inr (.inr (.inl ⟨hi, rest, hq⟩))
    · exact .inr (.inr (.inr ⟨hn, hb, w, rest, hq, hw⟩))

/-- Settles O60: each change of phase is one of the cases of `step_status_cases`. -/
theorem phaseChangesOnlyAsTheHandshakeSays : Obligations.PhaseChangesOnlyAsTheHandshakeSays := by
  intro s t h
  rcases step_status_cases h with ⟨hp, hr, he⟩ | ⟨hb, hd, hq⟩ | ⟨hi, hq⟩ | ⟨hn, hb, hq⟩
  · simp +contextual [hp, hr, he]
  · exact ⟨by simp [hd], fun _ _ => hq, by simp [hb], by simp [hd], by simp [hd]⟩
  · exact ⟨by simp [hi], by simp [hi], by simp [hi], fun _ _ => hq, by simp [hi]⟩
  · exact ⟨fun _ _ => hq, by simp [hb], by simp [hb], by simp [hb], fun h => absurd h hn⟩

end Sys2Proof.Machine
end

section
/-! SUPPORT. The host's reads between calls (R146): one step for each read, and `READ_RESULT` as the run of its
reads. -/

namespace Sys2Proof.Machine

/-- The block after reads of the host that returned `replies`, with the operations `rest` still pending. -/
def afterReads (replies : List HostReply) (rest : List HostOp) (s : State) : State :=
  { s with hostQueue := rest, hostSeen := s.hostSeen ++ replies }

@[simp] theorem afterReads_phase (l : List HostReply) (q : List HostOp) (s : State) :
    (afterReads l q s).phase = s.phase := rfl

@[simp] theorem afterReads_nil (s : State) : afterReads [] s.hostQueue s = s := by
  rw [afterReads, List.append_nil]

@[simp] theorem afterReads_afterReads (l l' : List HostReply) (q q' : List HostOp) (s : State) :
    afterReads l' q' (afterReads l q s) = afterReads (l ++ l') q' s := by
  simp only [afterReads, List.append_assoc]

/-- A step that reads, and the reads after it. -/
theorem run_read_then {k : Nat} {l l' : List HostReply} {q q' : List HostOp} {s : State}
    (h : step s = .next (afterReads l q s))
    (h' : runSteps k (afterReads l q s) = .next (afterReads l' q' (afterReads l q s))) :
    runSteps (k + 1) s = .next (afterReads (l ++ l') q' s) := by
  rw [run_next h, h', afterReads_afterReads]

/-! ### Single reads -/

theorem unlessBusy_of_ne_busy {s : State} (h : s.phase ≠ .busy) (o : Host.Outcome State Fault Refusal) :
    unlessBusy s o = o :=
  if_neg h

/-- A register is read between calls with no other effect (R146). -/
theorem stepIn_readReg {c : Config} {s : State} {r : Reg} {rest : List HostOp} (hp : s.phase ≠ .busy)
    (hq : s.hostQueue = .readReg r :: rest) :
    stepIn c s = .next (afterReads [.reg r (regRead c r s)] rest s) := by
  rw [stepIn_host hq nofun, hostStep, hostReadReg, unlessBusy_of_ne_busy (s := { s with hostQueue := rest }) hp,
    ite_self, regRead_hostQueue]
  rfl

/-- A byte below `OUT_LEN` is read between calls with no other effect (R146). -/
theorem stepIn_readOut {c : Config} {s : State} {a : Nat} {b : Byte} {rest : List HostOp} (hp : s.phase ≠ .busy)
    (hq : s.hostQueue = .readOut a :: rest) (hb : s.out[a]? = some b) :
    stepIn c s = .next (afterReads [.out a b] rest s) := by
  rw [stepIn_host hq nofun, hostStep, hostReadOut, unlessBusy_of_ne_busy (s := { s with hostQueue := rest }) hp, hb]
  rfl

/-- There is no output byte at or past `OUT_LEN` (U6). -/
theorem stepIn_readOut_refused {c : Config} {s : State} {a : Nat} {rest : List HostOp} (hp : s.phase ≠ .busy)
    (hq : s.hostQueue = .readOut a :: rest) (ha : s.out.length ≤ a) :
    stepIn c s = .refused .outByteUnspecified := by
  rw [stepIn_host hq nofun, hostStep, hostReadOut, unlessBusy_of_ne_busy (s := { s with hostQueue := rest }) hp,
    List.getElem?_eq_none ha]

/-! ### The reads of `READ_RESULT` -/

theorem onlyWhenDone_of_done {s : State} (h : s.phase = .done) (o : Host.Outcome State Fault Refusal) :
    onlyWhenDone s o = o := by
  rw [onlyWhenDone, h]

theorem onlyWhenDone_of_busy {s : State} (h : s.phase = .busy) (o : Host.Outcome State Fault Refusal) :
    onlyWhenDone s o = .refused .hostAccessWhileBusy := by
  rw [onlyWhenDone, h]

theorem onlyWhenDone_of_idle {s : State} (h : s.phase = .idle) (o : Host.Outcome State Fault Refusal) :
    onlyWhenDone s o = .refused .noResultYet := by
  rw [onlyWhenDone, h]

/-- The first read of `READ_RESULT`: the status, and what has to follow it. -/
theorem stepIn_readResult {c : Config} {s : State} {rest : List HostOp} (hd : s.phase = .done)
    (hq : s.hostQueue = .readResult :: rest) :
    stepIn c s =
      .next (afterReads [.reg .status (regRead c .status s)] (afterStatus (regRead c .status s) ++ rest) s) := by
  rw [stepIn_host hq nofun, hostStep, hostReadResult, onlyWhenDone_of_done (s := { s with hostQueue := rest }) hd,
    regRead_hostQueue]
  rfl

/-- The read of the length, and the reads of the bytes that have to follow it. -/
theorem stepIn_readOutput {c : Config} {s : State} {rest : List HostOp} (hd : s.phase = .done)
    (hq : s.hostQueue = .readOutput :: rest) :
    stepIn c s =
      .next (afterReads [.reg .outLen (regRead c .outLen s)] (afterOutLen (regRead c .outLen s) ++ rest) s) := by
  rw [stepIn_host hq nofun, hostStep, hostReadOutput, onlyWhenDone_of_done (s := { s with hostQueue := rest }) hd,
    regRead_hostQueue]
  rfl

/-- `RESULT` is 0 exactly for `OK` (R26). -/
theorem resultField_statusWord_eq_ok {s : State} (hd : s.phase = .done) :
    resultField (statusWord s) = resultCode .ok ↔ s.result = .ok := by
  rw [statusWord, hd]
  cases s.result <;> decide

/-- `READ_RESULT` reads the error position only after an error (R146). -/
theorem afterStatus_done (c : Config) {s : State} (hd : s.phase = .done) :
    afterStatus (regRead c .status s) = (if s.result = .ok then [] else [.readReg .errPos]) ++ [.readOutput] := by
  simp only [afterStatus, regRead_status, resultField_statusWord_eq_ok hd]

/-- Reads of the output from index `a` to its end return its bytes in order, one step each. By induction over the
bytes that are left. -/
theorem run_readOuts {bytes : List Byte} {a : Nat} {s : State} {rest : List HostOp} (hp : s.phase ≠ .busy)
    (hbytes : s.out.drop a = bytes)
    (hq : s.hostQueue = (List.range' a bytes.length).map HostOp.readOut ++ rest) :
    runSteps bytes.length s =
      .next (afterReads ((bytes.zipIdx a).map fun p => HostReply.out p.2 p.1) rest s) := by
  induction bytes generalizing a s with
  | nil =>
    obtain rfl : s.hostQueue = rest := hq
    rw [List.zipIdx_nil, List.map_nil, afterReads_nil]
    rfl
  | cons b bytes ih =>
    have hb : s.out[a]? = some b := by
      rw [← List.head?_drop, hbytes, List.head?_cons]
    have hleft : s.out.drop (a + 1) = bytes := by
      rw [← List.tail_drop, hbytes, List.tail_cons]
    exact run_read_then (stepIn_readOut hp hq hb) (ih (a := a + 1) hp hleft rfl)

/-- The length and then every byte of the output, where `OUT_LEN` is wide enough for it. -/
theorem run_readOutput {s : State} {rest : List HostOp} (hd : s.phase = .done) (hlen : s.out.length < 2 ^ 64)
    (hq : s.hostQueue = .readOutput :: rest) :
    runSteps (s.out.length + 1) s =
      .next (afterReads (.reg .outLen s.out.length :: s.out.zipIdx.map fun p => HostReply.out p.2 p.1) rest s) := by
  have hwhole : regRead Config.decided .outLen s = s.out.length := narrow_of_lt hlen
  have hstep := stepIn_readOutput (c := Config.decided) hd hq
  rw [hwhole, afterOutLen, List.range_eq_range'] at hstep
  exact run_read_then hstep (run_readOuts (a := 0) (by simp [hd]) List.drop_zero rfl)

/-- What `READ_RESULT` returns, in the order of its reads. -/
theorem resultReplies_eq (c : Config) (s : State) :
    resultReplies c s = .reg .status (regRead c .status s) ::
      ((if s.result = .ok then [] else [.reg .errPos (regRead c .errPos s)]) ++
        .reg .outLen s.out.length :: s.out.zipIdx.map fun p => HostReply.out p.2 p.1) := by
  simp [resultReplies]

/-- `READ_RESULT` of an ended call (R146), one step for each read. -/
theorem run_readResult {s : State} {rest : List HostOp} (hd : s.phase = .done) (hlen : s.out.length < 2 ^ 64)
    (hq : s.hostQueue = .readResult :: rest) :
    runSteps (s.out.length + if s.result = .ok then 2 else 3) s =
      .next (afterReads (resultReplies Config.decided s) rest s) := by
  have hstatus := stepIn_readResult (c := Config.decided) hd hq
  rw [afterStatus_done _ hd] at hstatus
  rw [resultReplies_eq]
  by_cases hok : s.result = .ok
  · simp only [if_pos hok] at hstatus ⊢
    exact run_read_then hstatus (run_readOutput hd hlen rfl)
  · simp only [if_neg hok] at hstatus ⊢
    exact run_read_then hstatus
      (run_read_then (stepIn_readReg (by simp [hd]) rfl) (run_readOutput hd hlen rfl))

/-- Settles O54: single reads by `stepIn_readOut`, `READ_RESULT` by `run_readResult` in `DONE` and by `onlyWhenDone`
in the other phases. -/
theorem outputIsReadBelowItsLength : Obligations.OutputIsReadBelowItsLength := by
  refine ⟨fun c s a rest hp hq => ⟨fun b hb => stepIn_readOut hp hq hb, stepIn_readOut_refused hp hq⟩,
    fun s rest hq => ⟨fun hd hlen => run_readResult hd hlen hq, fun hi => ?_, fun hb => ?_⟩⟩
  · rw [step_host hq nofun]
    exact onlyWhenDone_of_idle (s := { s with hostQueue := rest }) hi _
  · rw [step_host hq nofun]
    exact onlyWhenDone_of_busy (s := { s with hostQueue := rest }) hb _

end Sys2Proof.Machine
end

section
/-! SUPPORT. Errors and the end of a call: complete tokens raise nothing (R164), a call ends in one of four ways that
exclude one another (R167), and an ended call stays as it is until a `START` or a reset (R168). -/

namespace Sys2Proof.Machine

/-- Settles O21: `exec_complete` gives the state, whose status is the old one for every token. -/
theorem completeTokensSetNoStatus : Obligations.CompleteTokensSetNoStatus := by
  intro i s hfit
  exact ⟨afterComplete i s, exec_complete hfit, afterComplete_pos i s, afterComplete_phase i s,
    afterComplete_result i s, afterComplete_errPos i s⟩

/-! ### How a running call ends -/

/-- Where the end-of-stream test ends a running call, it ends it `OK` (R86). -/
theorem endOfStreamTest_result_of_done {s : State} (hb : s.phase = .busy) (hd : (endOfStreamTest s).phase = .done) :
    (endOfStreamTest s).result = .ok := by
  rcases endOfStreamTest_cases s with ⟨e, _⟩ | ⟨e, _⟩
  · rw [e, haltOk_result]
  · rw [e, hb] at hd
    cases hd

/-- The ways a step of the core ends a running call, each with the test that decides it (R167). -/
theorem coreStep_done_cases {s t : State} (hb : s.phase = .busy) (h : coreStep Config.decided s = .next t)
    (hd : t.phase = .done) :
    (t.result = .eos ∧ s.n < s.pos + 1) ∨
    (t.result = .incLit ∧ s.pos + 1 ≤ s.n ∧ Memory.read s.strm s.pos = some zeroSymbol ∧ s.n < s.pos + 9) ∨
    (t.result = .incBref ∧ s.pos + 1 ≤ s.n ∧ Memory.read s.strm s.pos = some oneSymbol ∧
      s.n < s.pos + (1 + s.ob + s.lb)) ∨
    t.result = .ok := by
  rcases coreStep_cases h with ⟨hn, rfl⟩ | ⟨_, i, _, _, _, _, _, rfl⟩ | ⟨flag, i, hn, hread, hflag, hi, hshort, rfl⟩
  · exact .inl ⟨raiseError_result _ _ s, Nat.lt_succ_of_le hn⟩
  · exact .inr (.inr (.inr (endOfStreamTest_result_of_done (s := afterComplete i s) hb hd)))
  · obtain ⟨hzero, hone, _⟩ := decided_cls flag
    cases i with
    | lit code =>
      obtain rfl := hzero.1 hflag.symm
      exact .inr (.inl ⟨rfl, hn, hread, hshort⟩)
    | bref offset length =>
      obtain rfl := hone.1 hflag.symm
      rw [Nat.add_assoc 1]
      exact .inr (.inr (.inl ⟨rfl, hn, hread, hshort⟩))
    | nopx => exact absurd rfl hi

/-- Settles O32: the ways of `coreStep_done_cases` differ in their result, and each carries its own test. -/
theorem atMostOneErrorApplies : Obligations.AtMostOneErrorApplies := by
  intro s t hb hq h hd
  rw [step_busy hq hb] at h
  rcases coreStep_done_cases hb h hd with ⟨hr, hn⟩ | ⟨hr, hroom, hread, hshort⟩ | ⟨hr, hroom, hread, hshort⟩ | hr
  · exact ⟨fun _ => hn, by simp [hr], by simp [hr], fun _ _ _ _ hroom => absurd hroom (Nat.not_le.2 hn)⟩
  · exact ⟨by simp [hr], fun _ => ⟨hroom, hread, hshort⟩, by simp [hr],
      fun _ hs h0 _ _ => absurd (Option.some.inj (hs.symm.trans hread)) h0⟩
  · exact ⟨by simp [hr], by simp [hr], fun _ => ⟨hroom, hread, hshort⟩,
      fun _ hs _ h1 _ => absurd (Option.some.inj (hs.symm.trans hread)) h1⟩
  · exact ⟨by simp [hr], by simp [hr], by simp [hr], fun _ _ _ _ _ => hr⟩

/-! ### After the end of a call -/

/-- A step of the host keeps the whole result, or is an accepted `START` (R191), or a hardware reset (R190). -/
theorem hostStep_result_cases {c : Config} {op : HostOp} {s t : State} (h : hostStep c op s = .next t) :
    SameResult s t ∨ (t = startCall s ∧ ∃ w, op = .writeReg .ctrl w ∧ w % 2 = 1) ∨
    (t = hardReset s ∧ op = .hardReset) := by
  rcases hostStep_cases h with ⟨rfl, _⟩ | ⟨hop, rfl⟩ | ⟨r, more, rfl, _⟩ | ⟨w, hop, hw, _, _, rfl⟩ |
    ⟨_, _, _, rfl⟩ | ⟨_, _, _, rfl⟩ | ⟨_, _, _, rfl⟩ | ⟨_, _, _, _, rfl⟩
  case inr.inl => exact .inr (.inr ⟨rfl, hop⟩)
  case inr.inr.inr.inl => exact .inr (.inl ⟨rfl, w, hop, hw⟩)
  all_goals exact .inl ⟨rfl, rfl, rfl, rfl, rfl, rfl⟩

/-- Settles O57: in `DONE` the core does not move, and `hostStep_result_cases` says what the host can do. -/
theorem endedCallsAreFrozen : Obligations.EndedCallsAreFrozen := by
  intro s t hd h
  have hb : s.phase ≠ .busy := by simp [hd]
  rcases stepIn_cases h with ⟨_, _, rfl⟩ | ⟨_, _, _, rfl⟩ | ⟨_, hbusy, _⟩ | ⟨_, _, hbusy, _⟩ | ⟨op, rest, hq, _, hh⟩
  · exact .inl ⟨rfl, rfl, rfl, rfl, rfl, rfl⟩
  · exact .inl ⟨rfl, rfl, rfl, rfl, rfl, rfl⟩
  · exact absurd hbusy hb
  · exact absurd hbusy hb
  · rcases hostStep_result_cases hh with hsame | ⟨rfl, w, rfl, hw⟩ | ⟨rfl, rfl⟩
    · exact .inl hsame
    · exact .inr (.inl ⟨rfl, rfl, rfl, rfl, rfl, rfl, w, rest, hq, hw⟩)
    · exact .inr (.inr ⟨rfl, rest, hq⟩)

end Sys2Proof.Machine
end

section
/-! SUPPORT. `START` (R144, R191): the step that writes 1 to bit 0 of `CTRL` between calls, accepted or refused
(R151, U2). -/

namespace Sys2Proof.Machine

/-- Between calls a 1 in bit 0 of `CTRL` starts a call wherever its values are in range (R20, R151). -/
theorem writeCtrl_start {c : Config} {w : Word} {s : State} (hw : w % 2 = 1) (hp : s.phase ≠ .busy) :
    writeCtrl c w s = if configInRange c s then .next (startCall s) else .refused .configOutOfRange :=
  if_pos ⟨hw, hp⟩

/-- The step of a pending `START` between calls, before its values are tested (R144). -/
theorem stepIn_start {c : Config} {s : State} {w : Word} {rest : List HostOp}
    (hq : s.hostQueue = .writeReg .ctrl w :: rest) (hw : w % 2 = 1) (hp : s.phase ≠ .busy) :
    stepIn c s =
      if configInRange c s then .next (startCall { s with hostQueue := rest }) else .refused .configOutOfRange := by
  rw [stepIn_host hq nofun]
  exact writeCtrl_start (s := { s with hostQueue := rest }) hw hp

/-- Settles O46: the two branches of `stepIn_start`, decided by `configInRange_iff`. -/
theorem startInitialisesTheCall : Obligations.StartInitialisesTheCall := by
  intro c s w rest hq hw hp
  rw [stepIn_start hq hw hp, ← configInRange_iff]
  exact ⟨fun hin => if_pos hin, fun hout => if_neg hout⟩

end Sys2Proof.Machine
end

section
/-! SUPPORT. The codec: a token's encoding reads back as the token (R62 to R64), a stream of real bits is the encoding
of its token, what decodes has its length (R61), what does not is cut short (R68), and a body symbol of class `SX`
reads as a '0' (R81). -/

namespace Sys2Proof

open Sys2Proof.Machine

/-! ### Reading an encoding -/

theorem decode_encode (ob lb : Nat) (i : Instr) (rest : List Symbol) (h : i.wellFormed ob lb = true) :
    decode Config.decided.cls ob lb (encode ob lb i ++ rest) = .ok (i, rest) := by
  cases i with
  | lit code =>
    have hflag : Config.decided.cls zeroSymbol = .s0 := rfl
    have hlen : (encodeField code.toNat 8).length = 8 := encodeField_length _ _
    rw [encode, List.cons_append, decode_s0 hflag (by rw [List.length_append]; omega), List.take_left' hlen,
      List.drop_left' hlen, readBits_encodeField, Nat.mod_eq_of_lt code.isLt, BitVec.ofNat_toNat, BitVec.setWidth_eq]
  | bref offset length =>
    obtain ⟨ho, hl⟩ : offset < 2 ^ ob ∧ length < 2 ^ lb := by simpa [Instr.wellFormed] using h
    have hflag : Config.decided.cls oneSymbol = .s1 := rfl
    have hob : (encodeField offset ob).length = ob := encodeField_length _ _
    have hlb : (encodeField length lb).length = lb := encodeField_length _ _
    have hbody : (encodeField offset ob ++ encodeField length lb).length = ob + lb := by
      rw [List.length_append, hob, hlb]
    rw [encode, List.cons_append, decode_s1 hflag (by rw [List.length_append]; omega), List.drop_left' hbody,
      List.append_assoc, List.take_left' hob, List.drop_left' hob, List.take_left' hlb, readBits_encodeField,
      readBits_encodeField, Nat.mod_eq_of_lt ho, Nat.mod_eq_of_lt hl]
  | nopx => exact decode_sX rfl ob lb rest

/-- Settles O6: `decode_encode`, token by token from the fields read back. -/
theorem decodeOfEncodeIsTheToken : Obligations.DecodeOfEncodeIsTheToken := decode_encode

/-! ### Encoding what was read -/

/-- A field's symbols depend on the bits below its width only. -/
theorem encodeField_congr {v w n : Nat} (h : ∀ k, k < n → v.testBit k = w.testBit k) :
    encodeField v n = encodeField w n := by
  induction n with
  | zero => rfl
  | succ n ih => rw [encodeField, encodeField, h n n.lt_succ_self, ih fun k hk => h k (Nat.lt_succ_of_lt hk)]

/-- The symbols of class `S0` or `S1` in the decided physical form (R42). -/
def IsBinary (syms : List Symbol) : Prop := ∀ sym ∈ syms, sym = zeroSymbol ∨ sym = oneSymbol

theorem IsBinary.of_subset {syms syms' : List Symbol} (h : IsBinary syms) (hs : syms' ⊆ syms) : IsBinary syms' :=
  fun sym hm => h sym (hs hm)

/-- A field of real bits has one spelling. By induction on the field: the first symbol is the bit above the rest. -/
theorem encodeField_readBits {syms : List Symbol} (h : IsBinary syms) :
    encodeField (readBits Config.decided.cls syms) syms.length = syms := by
  induction syms with
  | nil => rfl
  | cons sym rest ih =>
    have hlt := readBits_lt Config.decided.cls rest
    have htop : (readBits Config.decided.cls (sym :: rest)).testBit rest.length =
        (bit Config.decided.cls sym).testBit 0 := by
      rw [readBits_cons, Nat.mul_comm, Nat.testBit_two_pow_mul_add _ hlt, if_neg (Nat.lt_irrefl _), Nat.sub_self]
    have hrest := ih (h.of_subset (List.subset_cons_self _ _))
    have hlow : encodeField (readBits Config.decided.cls (sym :: rest)) rest.length = rest := by
      refine (encodeField_congr fun k hk => ?_).trans hrest
      rw [readBits_cons, Nat.mul_comm, Nat.testBit_two_pow_mul_add _ hlt, if_pos hk]
    rw [List.length_cons, encodeField, htop, hlow]
    rcases h sym List.mem_cons_self with rfl | rfl <;> rfl

/-- The same for the first `n` symbols of a stream that has as many. -/
theorem encodeField_readBits_take {syms : List Symbol} {n : Nat} (h : IsBinary syms) (hn : n ≤ syms.length) :
    encodeField (readBits Config.decided.cls (syms.take n)) n = syms.take n := by
  have he := encodeField_readBits (h.of_subset (List.take_subset n syms))
  rwa [List.length_take_of_le hn] at he

/-- Settles O7: each field has one spelling, and a flag of real bits is the flag its token is written with. -/
theorem encodeOfDecodeOnBinaryStreams : Obligations.EncodeOfDecodeOnBinaryStreams := by
  intro ob lb syms rest i hbin hd
  cases syms with
  | nil => cases hd
  | cons flag body =>
    have hbody : IsBinary body := IsBinary.of_subset hbin (List.subset_cons_self _ _)
    have hfull := bodyLength_le_of_decode hd
    rcases hbin flag List.mem_cons_self with rfl | rfl
    · have hfull : 8 ≤ body.length := hfull
      have hlt : readBits Config.decided.cls (body.take 8) < 2 ^ 8 := readBits_take_lt _ body 8
      rw [decode_s0 rfl hfull] at hd
      cases hd
      rw [encode, BitVec.toNat_ofNat, Nat.mod_eq_of_lt hlt, encodeField_readBits_take hbody hfull, List.cons_append,
        List.take_append_drop]
    · have hfull : ob + lb ≤ body.length := hfull
      have hdrop : IsBinary (body.drop ob) := hbody.of_subset (List.drop_subset ob body)
      rw [decode_s1 rfl hfull] at hd
      cases hd
      rw [encode, encodeField_readBits_take hbody (by omega),
        encodeField_readBits_take hdrop (by rw [List.length_drop]; omega), List.cons_append, ← List.take_add,
        List.take_append_drop]

/-! ### Lengths -/

/-- What decodes has its fields in range (R65). -/
theorem wellFormed_of_decode {cls : Symbol → SymClass} {ob lb : Nat} {syms rest : List Symbol} {i : Instr}
    (hd : decode cls ob lb syms = .ok (i, rest)) : i.wellFormed ob lb = true := by
  cases syms with
  | nil => cases hd
  | cons flag body =>
    obtain ⟨j, hj, _, hw⟩ := decode_complete (bodyLength_le_of_decode hd)
    rw [hj] at hd
    cases hd
    exact hw

/-- Settles O4: the field ranges of `wellFormed_of_decode`, and the split of `decode_split`. -/
theorem decodedTokensHaveTheirLength : Obligations.DecodedTokensHaveTheirLength := by
  intro cls ob lb syms i rest hd
  have hw := wellFormed_of_decode hd
  obtain ⟨front, rfl, _, hlen⟩ := decode_split hd
  refine ⟨hw, (List.drop_left' hlen).symm, by rw [List.length_append]; omega, ?_, ?_, ?_⟩
  · rintro code rfl
    rfl
  · rintro offset length rfl
    exact (Nat.add_assoc 1 ob lb).symm
  · rintro rfl
    rfl

/-- Settles O3: a whole body decodes (`decode_complete`), and a body cut short has the error of its flag's class
(`decode_cutShort`). -/
theorem onlyIncompleteTokensAreRejected : Obligations.OnlyIncompleteTokensAreRejected := by
  intro cls ob lb syms e
  cases syms with
  | nil => simp [decode, eq_comm]
  | cons flag body =>
    rcases Nat.lt_or_ge body.length (bodyLength ob lb (cls flag)) with hshort | hfull
    · rcases decode_cutShort hshort with ⟨hk, hd⟩ | ⟨hk, hd⟩ <;> rw [hk, bodyLength] at hshort <;>
        simp [hd, hk, hshort, eq_comm]
    · obtain ⟨i, hd, _⟩ := decode_complete hfull
      cases hk : cls flag <;> rw [hk, bodyLength] at hfull <;> simp [hd, hk, hfull]

/-! ### Symbols of class `SX` in a body -/

/-- A change of a body that keeps every symbol's bit keeps the field. -/
theorem readBits_map {cls : Symbol → SymClass} {f : Symbol → Symbol} (hf : ∀ sym, bit cls (f sym) = bit cls sym)
    (syms : List Symbol) : readBits cls (syms.map f) = readBits cls syms := by
  rw [readBits, List.foldl_map]
  simp only [hf]
  rfl

/-- A change of a body that keeps every symbol's bit keeps the token and where it ends. -/
theorem decode_map_body {cls : Symbol → SymClass} {f : Symbol → Symbol} (hf : ∀ sym, bit cls (f sym) = bit cls sym)
    {ob lb : Nat} {flag : Symbol} {body rest : List Symbol} {i : Instr}
    (hd : decode cls ob lb (flag :: body) = .ok (i, rest)) :
    decode cls ob lb (flag :: body.map f) = .ok (i, rest.map f) := by
  have hfull := bodyLength_le_of_decode hd
  have hfull' : bodyLength ob lb (cls flag) ≤ (body.map f).length := by rwa [List.length_map]
  cases hk : cls flag <;> rw [hk] at hfull hfull'
  case s0 =>
    rw [decode_s0 hk hfull] at hd
    cases hd
    rw [decode_s0 hk hfull', ← List.map_take, readBits_map hf, List.map_drop]
  case s1 =>
    rw [decode_s1 hk hfull] at hd
    cases hd
    rw [decode_s1 hk hfull', ← List.map_take, readBits_map hf, ← List.map_drop, ← List.map_take, readBits_map hf,
      List.map_drop]
  case sX =>
    rw [decode_sX hk] at hd
    cases hd
    exact decode_sX hk ob lb _

/-- Settles O5: a '0' in the place of a symbol of class `SX` has the same bit (R81). -/
theorem nonBinaryBodySymbolsReadAsZero : Obligations.NonBinaryBodySymbolsReadAsZero := by
  intro cls ob lb zeroSym flag body rest i hzero hd
  refine decode_map_body (fun sym => ?_) hd
  split
  · next hx => rw [bit_eq_zero (by simp [hzero]), bit_eq_zero (by simp [hx])]
  · rfl

/-- Settles O8: the decoder evaluated on the five words. -/
theorem sampleWordsDecode : Obligations.SampleWordsDecode := ⟨rfl, rfl, rfl, rfl, rfl⟩

end Sys2Proof
end

section
/-! SUPPORT. The stream's memory as a set of cells (R41), and the shared operations in closed form (R131). -/

namespace Sys2Proof.Machine

/-- In canonical form the cells are what is read. -/
theorem Memory.mem_iff_read {m : Memory} (h : Memory.wf m) (a : Nat) (v : Symbol) :
    (a, v) ∈ m ↔ Memory.read m a = some v := by
  induction m with
  | nil => simp [Memory.read]
  | cons c rest ih =>
    obtain ⟨hc, hrest⟩ := List.pairwise_cons.1 h
    rw [List.mem_cons, Memory.read, ih hrest]
    by_cases ha : c.1 = a
    · subst ha
      have habsent : Memory.read rest c.1 ≠ some v := fun hr => 
        Nat.lt_irrefl _ (hc (c.1, v) ((ih hrest).2 hr))
      simp [Prod.ext_iff, habsent, eq_comm]
    · simp [Prod.ext_iff, ha, Ne.symm ha]

/-- Two memories in canonical form that read alike hold the same cells in the same order. -/
theorem Memory.eq_of_read_eq {m m' : Memory} (h : Memory.wf m) (h' : Memory.wf m')
    (hr : ∀ a, Memory.read m a = Memory.read m' a) : m = m' := by
  have hnodup : ∀ {l : Memory}, Memory.wf l → l.Nodup := fun hl =>
    List.Pairwise.imp (fun {_ _} hlt he => Nat.ne_of_lt hlt (congrArg Prod.fst he)) hl
  have hperm : m.Perm m' := (List.perm_ext_iff_of_nodup (hnodup h) (hnodup h')).2 fun ⟨a, v⟩ => by
    rw [Memory.mem_iff_read h, Memory.mem_iff_read h', hr]
  exact hperm.eq_of_pairwise (fun _ _ _ _ hlt hgt => absurd hlt (Nat.lt_asymm hgt)) h h'

/-- Settles O11: `Memory.read_write`. -/
theorem readAfterWriteOfTheStream : Obligations.ReadAfterWriteOfTheStream := Memory.read_write

/-- Settles O12: `Memory.write_keeps_wf`, and `Memory.eq_of_read_eq` through the cells. -/
theorem canonicalFormIsKeptAndUnique : Obligations.CanonicalFormIsKeptAndUnique :=
  ⟨fun _ a sym => Memory.write_keeps_wf a sym, fun _ _ => Memory.eq_of_read_eq⟩

/-- Settles O10: `trim_eq`, with the length of what it keeps. -/
theorem trimKeepsTheNewestBytes : Obligations.TrimKeepsTheNewestBytes := by
  intro s
  exact ⟨trim_eq s, by rw [trim_eq, keepNewest_length], trim_of_le⟩

end Sys2Proof.Machine
end

section
/-! SUPPORT. What one token emits and leaves: the frame, the bounds on its bytes (R122, R134), the copy at distance 0
and in closed form (R119, R120), the degenerate widths (R123), and the tokens cut short (R101, R111). -/

namespace Sys2Proof.Machine

theorem tokenLength_s1 (ob lb : Nat) : tokenLength ob lb .s1 = 1 + ob + lb := (Nat.add_assoc 1 ob lb).symm

theorem wellFormed_bref_iff {ob lb offset length : Nat} :
    (Instr.bref offset length).wellFormed ob lb = true ↔ offset < 2 ^ ob ∧ length < 2 ^ lb := by
  simp [Instr.wellFormed]

/-! ### The emitted bytes -/

theorem emitted_lit_length_le (code : Byte) (w : List Byte) : (emitted (.lit code) w).length ≤ 1 := by
  rw [emitted]
  split <;> simp

theorem emitted_bref_length_le (offset length : Nat) (w : List Byte) :
    (emitted (.bref offset length) w).length ≤ length := by
  rw [emitted]
  split
  · exact copied_length_le _ _ _
  · exact Nat.zero_le _

theorem emitted_bref_skipped {offset length : Nat} {w : List Byte} (h : offset > w.length ∨ length = 0) :
    emitted (.bref offset length) w = [] :=
  if_neg fun ⟨ho, hl⟩ => h.elim (Nat.not_lt.2 ho) hl

/-- At distance 0 the copy's first index is already past the window (R119). -/
theorem emitted_bref_zero_offset (length : Nat) (w : List Byte) : emitted (.bref 0 length) w = [] := by
  by_cases hl : length = 0
  · exact emitted_bref_skipped (.inr hl)
  · rw [emitted_bref (Nat.zero_le _) hl, if_pos rfl]

/-- A complete token that emits nothing only moves the cursor: the trim finds a window within its bound. -/
theorem afterComplete_of_emits_nothing {i : Instr} {s : State} (he : emitted i s.win = [])
    (hw : s.win.length ≤ s.window) :
    afterComplete i s = { s with pos := s.pos + tokenLength s.ob s.lb i.flagClass } := by
  rw [afterComplete, windowAfter_eq hw, he, List.append_nil, List.append_nil, keepNewest_of_le hw]

theorem exec_bref_emits_nothing {offset length : Nat} {s : State} (he : emitted (.bref offset length) s.win = [])
    (hw : s.win.length ≤ s.window) (hfit : s.pos + (1 + s.ob + s.lb) ≤ s.n) :
    exec (.bref offset length) s = .next { s with pos := s.pos + (1 + s.ob + s.lb) } := by
  rw [← tokenLength_s1] at hfit ⊢
  exact (exec_complete (i := .bref offset length) hfit).trans (congrArg _ (afterComplete_of_emits_nothing he hw))

/-- Settles O17: at distance 0 nothing is emitted. -/
theorem zeroOffsetCopiesNothing : Obligations.ZeroOffsetCopiesNothing := by
  intro length s hfit hw
  exact exec_bref_emits_nothing (emitted_bref_zero_offset length s.win) hw hfit

/-- Settles O25: a field of width 0 holds 0, and a back-reference with offset 0 or length 0 emits nothing. -/
theorem degenerateWidthsEmitNothing : Obligations.DegenerateWidthsEmitNothing := by
  intro offset length s hwf hw hdeg hfit
  obtain ⟨ho, hl⟩ := wellFormed_bref_iff.1 hwf
  refine exec_bref_emits_nothing ?_ hw hfit
  rcases hdeg with h | h
  · rw [h, Nat.pow_zero, Nat.lt_one_iff] at ho
    rw [ho]
    exact emitted_bref_zero_offset length s.win
  · rw [h, Nat.pow_zero, Nat.lt_one_iff] at hl
    exact emitted_bref_skipped (.inr hl)

/-- Settles O18: the emitted bytes of a valid copy are `periodicCopy`. -/
theorem brefEmitsAPeriodicCopy : Obligations.BrefEmitsAPeriodicCopy := by
  intro offset length s hfit h1 ho hl
  have he : emitted (.bref offset length) s.win = periodicCopy s.win offset length := by
    rw [emitted_bref ho hl, if_neg (by omega)]
  rw [← tokenLength_s1] at hfit ⊢
  rw [exec_complete (i := .bref offset length) hfit, afterComplete, he]
  rfl

/-! ### Tokens cut short -/

/-- Settles O14: `exec_cutShort` for the 9 symbols of a `LIT`. -/
theorem litCutShortEndsTheCall : Obligations.LitCutShortEndsTheCall := by
  intro code s hshort
  exact exec_cutShort (i := .lit code) hshort nofun

/-- Settles O19: `exec_cutShort` for the symbols of a `BREF`. -/
theorem brefCutShortEndsTheCall : Obligations.BrefCutShortEndsTheCall := by
  intro offset length s hshort
  rw [← tokenLength_s1] at hshort
  exact exec_cutShort (i := .bref offset length) hshort nofun

/-! ### The frame and the bounds of every token -/

/-- Settles O22: both states that `exec_cases` allows change the core's own fields only; a token cut short ends the
call without output. -/
theorem tokensLeaveTheRestAlone : Obligations.TokensLeaveTheRestAlone := by
  intro i s t h
  rcases exec_cases h with ⟨rfl, _⟩ | ⟨rfl, _⟩
  · exact ⟨⟨rfl, rfl, rfl, rfl, rfl, rfl⟩, fun _ => rfl, ⟨_, rfl⟩, fun _ ha => List.getElem?_append_left ha,
      .inl ⟨rfl, rfl, rfl⟩⟩
  · exact ⟨⟨rfl, rfl, rfl, rfl, rfl, rfl⟩, fun _ => rfl, List.prefix_refl _, fun _ _ => rfl, .inr ⟨rfl, rfl, rfl⟩⟩

/-- Settles O23: a complete token emits `emitted`, bounded by its class, and a token cut short emits nothing. -/
theorem oneTokenEmitsBoundedOutput : Obligations.OneTokenEmitsBoundedOutput := by
  intro i s t hwf hw h
  rcases exec_cases h with ⟨rfl, _⟩ | ⟨rfl, _⟩
  · refine ⟨emitted i s.win, rfl, windowAfter_eq hw, ?_⟩
    cases i with
    | lit code => exact ⟨fun _ => emitted_lit_length_le code s.win, nofun, nofun⟩
    | bref offset length =>
      obtain ⟨_, hl⟩ := wellFormed_bref_iff.1 hwf
      exact ⟨nofun, fun _ => (emitted_bref_length_le offset length s.win).trans (Nat.le_sub_one_of_lt hl), nofun⟩
    | nopx => exact ⟨nofun, nofun, fun _ => rfl⟩
  · exact ⟨[], (List.append_nil _).symm, by rw [List.append_nil, keepNewest_of_le hw]; rfl, by simp⟩

/-- A copy lengthens the window by at most the token's length (R134). -/
theorem copyBytes_win_length_le (offset length : Nat) (s : State) :
    (copyBytes offset length s).win.length ≤ s.win.length + length := by
  by_cases hv : offset ≤ s.win.length ∧ length ≠ 0
  · obtain ⟨ho, hl⟩ := hv
    have hle := copied_length_le (s.win.length - offset) length s.win
    rw [copyBytes_of_valid ho hl, copyLoop_eq, List.length_append]
    omega
  · rw [copyBytes_of_invalid (by omega)]
    exact Nat.le_add_right _ _

/-- Settles O24: one append for a `LIT`, at most `length` appends for a `BREF`. -/
theorem transientWindowIsBounded : Obligations.TransientWindowIsBounded := by
  intro s hw
  refine ⟨fun code => ?_, fun offset length hl => ?_⟩
  · rw [appendPrintable]
    split
    · rw [append_win, List.length_append]
      exact Nat.add_le_add_right hw 1
    · exact Nat.le_succ_of_le hw
  · exact (copyBytes_win_length_le offset length s).trans (Nat.add_le_add hw (Nat.le_sub_one_of_lt hl))

end Sys2Proof.Machine
end

section
/-! SUPPORT. The window-free reading (R121, R136): a copy reads by its distance from the end, so a window that holds the
newest bytes of the output gives the bytes the whole output would give. -/

namespace Sys2Proof.Machine

/-- The same distance back from the end is the same byte in a list and in a final part of it. -/
theorem getElem?_back_of_suffix {l l' : List Byte} (h : l <:+ l') {d : Nat} (hd : d ≤ l.length) :
    l'[l'.length - d]? = l[l.length - d]? := by
  obtain ⟨p, rfl⟩ := h
  rw [List.length_append, List.getElem?_append_right (by omega)]
  congr 1
  omega

/-- One iteration of a copy at distance `offset`, with the list as long as it is then. -/
theorem copied_succ {offset k : Nat} {b : Byte} {w : List Byte} (ho : offset ≤ w.length)
    (hb : w[w.length - offset]? = some b) :
    copied (w.length - offset) (k + 1) w = b :: copied ((w ++ [b]).length - offset) k (w ++ [b]) := by
  rw [copied, hb, List.length_append, List.length_singleton, Nat.sub_add_comm ho]

theorem copied_stops {src k : Nat} {w : List Byte} (hb : w[src]? = none) : copied src k w = [] := by
  cases k with
  | zero => rfl
  | succ k => rw [copied, hb]

/-- A copy from a final part of a list that its distance lies in is the copy from the whole list. -/
theorem copied_of_suffix {offset : Nat} (k : Nat) {l l' : List Byte} (h : l <:+ l') (ho : offset ≤ l.length) :
    copied (l.length - offset) k l = copied (l'.length - offset) k l' := by
  induction k generalizing l l' with
  | zero => rfl
  | succ k ih =>
    have hback := getElem?_back_of_suffix h ho
    cases hb : l[l.length - offset]? with
    | none => rw [copied_stops hb, copied_stops (hback.trans hb)]
    | some b =>
      obtain ⟨p, hp⟩ := h
      have hnext : l ++ [b] <:+ l' ++ [b] := ⟨p, by rw [← List.append_assoc, hp]⟩
      rw [copied_succ ho hb, copied_succ (ho.trans (List.IsSuffix.length_le ⟨p, hp⟩)) (hback.trans hb),
        ih hnext (by rw [List.length_append]; omega)]

/-- The copy from the growing output appends the copied bytes. -/
theorem copyFromOutput_eq {offset : Nat} (k : Nat) {out : List Byte} (ho : offset ≤ out.length) :
    copyFromOutput offset k out = out ++ copied (out.length - offset) k out := by
  induction k generalizing out with
  | zero => exact (List.append_nil out).symm
  | succ k ih =>
    cases hb : out[out.length - offset]? with
    | none => rw [copyFromOutput, hb, copied_stops hb, List.append_nil]
    | some b =>
      rw [copyFromOutput, hb, copied_succ ho hb, ← List.singleton_append, ← List.append_assoc]
      exact ih (by rw [List.length_append]; omega)

/-- A token read without a window emits what it would from a window that holds the whole output. -/
theorem windowFreeToken_eq (i : Instr) (out : List Byte) : windowFreeToken i out = out ++ emitted i out := by
  cases i with
  | lit code =>
    rw [windowFreeToken, emitted]
    split <;> simp
  | bref offset length =>
    rw [windowFreeToken]
    split
    · next h => rw [emitted_bref_skipped h, List.append_nil]
    · next h =>
      have hv : offset ≤ out.length ∧ length ≠ 0 := by omega
      rw [emitted, if_pos hv, copyFromOutput_eq length hv.1]
  | nopx => exact (List.append_nil out).symm

/-- An offset below `W` reaches past the newest `W` bytes exactly where it reaches past all of them (R136). -/
theorem offset_gt_keepNewest_iff {offset w : Nat} (h : offset < w) (out : List Byte) :
    offset > (keepNewest w out).length ↔ offset > out.length := by
  rw [keepNewest_length]
  omega

/-- A well-formed token emits the same bytes from the newest `2^ob` bytes as from all of them. -/
theorem emitted_keepNewest {i : Instr} {ob lb : Nat} (hwf : i.wellFormed ob lb = true) (out : List Byte) :
    emitted i (keepNewest (2 ^ ob) out) = emitted i out := by
  cases i with
  | lit code => rfl
  | bref offset length =>
    obtain ⟨ho, _⟩ := wellFormed_bref_iff.1 hwf
    have hiff := offset_gt_keepNewest_iff ho out
    by_cases hv : offset > out.length ∨ length = 0
    · rw [emitted_bref_skipped hv, emitted_bref_skipped (hv.imp_left hiff.2)]
    · have hin : offset ≤ (keepNewest (2 ^ ob) out).length := by omega
      rw [emitted, emitted, if_pos (by omega), if_pos (by omega),
        copied_of_suffix length (keepNewest_suffix _ out) hin]
  | nopx => rfl

/-- The window holds the newest bytes of the output (R15). -/
def Mirrors (s : State) : Prop := s.win = keepNewest s.window s.out

theorem Mirrors.win_length_le {s : State} (h : Mirrors s) : s.win.length ≤ s.window := by
  rw [h, keepNewest_length]
  exact Nat.min_le_right _ _

theorem Mirrors.afterComplete_out {i : Instr} {s : State} (h : Mirrors s) (hwf : i.wellFormed s.ob s.lb = true) :
    (afterComplete i s).out = windowFreeToken i s.out := by
  rw [windowFreeToken_eq, Machine.afterComplete_out, h, State.window, emitted_keepNewest hwf]

/-- Every complete token keeps the mirror: trimming before an append and after it is trimming after it. -/
theorem Mirrors.afterComplete {s : State} (h : Mirrors s) (i : Instr) : Mirrors (afterComplete i s) := by
  rw [Mirrors, afterComplete_win, windowAfter_eq h.win_length_le, Machine.afterComplete_out, afterComplete_window,
    ← keepNewest_append s.window s.out, ← h]

/-- Settles O26: the output by `Mirrors.afterComplete_out`, the window by `Mirrors.afterComplete`. -/
theorem windowFreeReadingAgrees : Obligations.WindowFreeReadingAgrees := by
  intro i s hwf hm hfit
  refine ⟨?_, afterComplete i s, exec_complete hfit, Mirrors.afterComplete_out hm hwf, Mirrors.afterComplete hm i⟩
  rintro offset length rfl
  obtain ⟨ho, _⟩ := wellFormed_bref_iff.1 hwf
  rw [hm]
  exact offset_gt_keepNewest_iff ho s.out

end Sys2Proof.Machine
end

section
/-! SUPPORT. The ring realisation of the window (R133): an append moves every distance back by one and overwrites the
oldest byte of a full ring, and a copy at a fixed distance is a run of appends. -/

namespace Sys2Proof.Machine

/-- Distance `d + 1` back from the next write position is distance `d` back from this one. -/
theorem ringIndex_succ {w wr d : Nat} (hd : d + 1 ≤ w) :
    ((wr + 1) % w + (w - (d + 1))) % w = (wr + (w - d)) % w := by
  rw [Nat.mod_add_mod]
  congr 1
  omega

/-- Distance 1 back from the next write position is the byte just written. -/
theorem ringBack_one_ringAppend {r : Ring} (b : Byte) (h : r.wr < r.cells.length) :
    ringBack 1 (ringAppend b r) = some b := by
  rw [ringBack, ringAppend, List.length_set, ringIndex_succ (d := 0) (by omega), Nat.sub_zero, Nat.add_mod_right,
    Nat.mod_eq_of_lt h, List.getElem?_set_self h]

/-- Every other byte within the ring's reach is one further back after an append. -/
theorem ringBack_succ_ringAppend {r : Ring} (b : Byte) {d : Nat} (h : r.wr < r.cells.length) (h1 : 1 ≤ d)
    (hd : d + 1 ≤ r.cells.length) : ringBack (d + 1) (ringAppend b r) = ringBack d r := by
  have hne : r.wr ≠ (r.wr + (r.cells.length - d)) % r.cells.length := by
    rcases Nat.lt_or_ge r.wr d with hlt | hge
    · rw [Nat.mod_eq_of_lt (by omega)]
      omega
    · rw [show r.wr + (r.cells.length - d) = r.wr - d + r.cells.length by omega, Nat.add_mod_right,
        Nat.mod_eq_of_lt (by omega)]
      omega
  rw [ringBack, ringBack, ringAppend, List.length_set, ringIndex_succ hd, List.getElem?_set_ne hne]

theorem Ring.Realises.win_length_le {w : Nat} {r : Ring} {win : List Byte} (h : Ring.Realises w r win) :
    win.length ≤ w := by
  obtain ⟨_, _, _, hle, _⟩ := h
  exact hle

theorem Ring.Realises.cnt_eq {w : Nat} {r : Ring} {win : List Byte} (h : Ring.Realises w r win) :
    r.cnt = win.length := by
  obtain ⟨_, _, hcnt, _⟩ := h
  exact hcnt

theorem Ring.Realises.ringBack_eq {w d : Nat} {r : Ring} {win : List Byte} (h : Ring.Realises w r win) (h1 : 1 ≤ d)
    (hd : d ≤ win.length) : ringBack d r = win[win.length - d]? := by
  obtain ⟨_, _, _, _, hback⟩ := h
  exact hback d h1 hd

/-- An append to the ring is an append to the window and a trim. -/
theorem Ring.Realises.append {w : Nat} {r : Ring} {win : List Byte} (h : Ring.Realises w r win) (b : Byte) :
    Ring.Realises w (ringAppend b r) (keepNewest w (win ++ [b])) := by
  obtain ⟨hcells, hwr, hcnt, hle, hback⟩ := h
  subst hcells
  have hlen : (keepNewest r.cells.length (win ++ [b])).length = min (win.length + 1) r.cells.length := by
    rw [keepNewest_length, List.length_append, List.length_singleton]
  refine ⟨List.length_set, Nat.mod_lt _ (Nat.zero_lt_of_lt hwr), by rw [hlen, ringAppend, hcnt], by omega,
    fun d h1 hd => ?_⟩
  rw [← getElem?_back_of_suffix (keepNewest_suffix _ _) hd, List.length_append, List.length_singleton]
  obtain ⟨d, rfl⟩ := Nat.exists_eq_add_of_le' h1
  rw [Nat.add_sub_add_right]
  cases d with
  | zero => rw [ringBack_one_ringAppend b hwr, Nat.sub_zero, List.getElem?_concat_length]
  | succ d =>
    rw [ringBack_succ_ringAppend b hwr (by omega) (by omega), hback _ (by omega) (by omega),
      List.getElem?_append_left (by omega)]

/-- A copy on a ring emits the bytes a copy on its window does, and the ring holds the trimmed window. By induction on
the iterations: each append keeps the relation, and the distance stays within the window. -/
theorem Ring.Realises.copy {w offset : Nat} (k : Nat) {r : Ring} {win o : List Byte} (h : Ring.Realises w r win)
    (h1 : 1 ≤ offset) (ho : offset ≤ win.length) :
    (ringCopy offset k (r, o)).2 = o ++ copied (win.length - offset) k win ∧
      Ring.Realises w (ringCopy offset k (r, o)).1 (keepNewest w (win ++ copied (win.length - offset) k win)) := by
  induction k generalizing r win o with
  | zero =>
    rw [copied, List.append_nil, List.append_nil, keepNewest_of_le h.win_length_le]
    exact ⟨rfl, h⟩
  | succ k ih =>
    obtain ⟨b, hb⟩ : ∃ b, win[win.length - offset]? = some b := ⟨_, List.getElem?_eq_getElem (by omega)⟩
    have ho' : offset ≤ (keepNewest w (win ++ [b])).length := by
      have hle := h.win_length_le
      rw [keepNewest_length, List.length_append, List.length_singleton]
      omega
    have hrest := ih (o := o ++ [b]) (h.append b) ho'
    rw [copied_of_suffix k (keepNewest_suffix _ _) ho', keepNewest_append] at hrest
    rw [ringCopy, h.ringBack_eq h1 ho, hb, copied_succ ho hb, ← List.singleton_append, ← List.append_assoc,
      ← List.append_assoc]
    exact hrest

/-- A complete token on a ring emits the bytes it emits on the window the ring holds, and keeps the relation. -/
theorem Ring.Realises.token {w : Nat} {r : Ring} {win : List Byte} (h : Ring.Realises w r win) (i : Instr)
    (o : List Byte) :
    (ringToken i (r, o)).2 = o ++ emitted i win ∧
      Ring.Realises w (ringToken i (r, o)).1 (keepNewest w (win ++ emitted i win)) := by
  have hsame : o = o ++ [] ∧ Ring.Realises w r (keepNewest w (win ++ [])) := by
    rw [List.append_nil, List.append_nil, keepNewest_of_le h.win_length_le]
    exact ⟨rfl, h⟩
  cases i with
  | lit code =>
    rw [ringToken, emitted]
    split
    · exact ⟨rfl, h.append code⟩
    · exact hsame
  | bref offset length =>
    rw [ringToken, h.cnt_eq]
    split
    · next hskip =>
      have he : emitted (.bref offset length) win = [] := by
        rcases hskip with ho | hl | rfl
        · exact emitted_bref_skipped (.inl ho)
        · exact emitted_bref_skipped (.inr hl)
        · exact emitted_bref_zero_offset length win
      rw [he]
      exact hsame
    · next hvalid =>
      rw [emitted, if_pos (by omega)]
      exact h.copy length (by omega) (by omega)
  | nopx => exact hsame

/-- The empty ring holds the empty window: there is no distance to read at. -/
theorem Ring.realises_empty {w : Nat} (h : 0 < w) : Ring.Realises w (Ring.empty w) [] :=
  ⟨List.length_replicate, h, rfl, Nat.zero_le _, fun _ h1 h0 => absurd (Nat.le_trans h1 h0) (by simp)⟩

/-- Settles O27: `Ring.realises_empty`, and `Ring.Realises.token` against the bytes of `exec_complete`. -/
theorem ringRealisesTheWindow : Obligations.RingRealisesTheWindow := by
  refine ⟨fun ob => Ring.realises_empty (Nat.two_pow_pos ob), fun i s r _ h hfit => ?_⟩
  obtain ⟨hout, hring⟩ := h.token i s.out
  refine ⟨afterComplete i s, exec_complete hfit, hout, ?_⟩
  rwa [afterComplete_win, windowAfter_eq h.win_length_le]

end Sys2Proof.Machine
end

section
/-! SUPPORT. The invariant (`Inv`) and every step: its clauses about the input, which only the host writes, and about
what a call has produced, which only the core writes, each kept by what leaves its own part alone. -/

namespace Sys2Proof.Machine

/-! ### The two parts of the invariant that hold in every phase -/

/-- The clauses about what only the host writes (R10): the configuration and the stream. -/
structure InputInv (c : Config) (s : State) : Prop where
  config : configInRange c s = true
  strm_wf : Memory.wf s.strm
  strm_inRange : ∀ cell ∈ s.strm, cell.1 < c.strmCap ∧ cell.2 < 2 ^ c.symw

/-- The clauses about the positions, the output and the window. -/
structure OutputInv (c : Config) (s : State) : Prop where
  pos_range : s.pos ≤ c.strmCap
  errPos_range : s.errPos ≤ c.strmCap
  out_range : s.out.length ≤ s.pos * tokenOutputBound c.lbMax
  printable_out : AllPrintable s.out
  win_suffix : s.win <:+ s.out

section Parts

variable {c : Config} {s t : State}

theorem Inv.input (h : Inv c s) : InputInv c s := ⟨h.config, h.strm_wf, h.strm_inRange⟩

theorem Inv.output (h : Inv c s) : OutputInv c s :=
  ⟨h.pos_range, h.errPos_range, h.out_range, h.printable_out, h.win_suffix⟩

theorem Inv.of_parts (hin : InputInv c s) (hout : OutputInv c s) (hbusy : s.phase = .busy → BusyInv s)
    (hidle : s.phase = .idle → IdleInv s) (hdone : s.phase = .done → DoneInv s) : Inv c s :=
  ⟨hin.config, hin.strm_wf, hin.strm_inRange, hout.pos_range, hout.errPos_range, hout.out_range, hout.printable_out,
    hout.win_suffix, hbusy, hidle, hdone⟩

theorem InputInv.congr (h : InputInv c s) (he : SameInput s t) : InputInv c t := by
  obtain ⟨hstrm, hlen, hob, hlb⟩ := he
  refine ⟨?_, by rw [hstrm]; exact h.strm_wf, by rw [hstrm]; exact h.strm_inRange⟩
  rw [configInRange, State.ob, State.lb, State.n, hob, hlb, hlen]
  exact h.config

theorem OutputInv.congr (h : OutputInv c s) (ho : t.out = s.out) (hw : t.win = s.win) (hp : t.pos = s.pos)
    (he : t.errPos = s.errPos) : OutputInv c t := by
  constructor
  · rw [hp]; exact h.pos_range
  · rw [he]; exact h.errPos_range
  · rw [ho, hp]; exact h.out_range
  · rw [ho]; exact h.printable_out
  · rw [ho, hw]; exact h.win_suffix

theorem InputInv.n_le (h : InputInv c s) : s.n ≤ c.strmCap := by
  obtain ⟨_, _, hn⟩ := configInRange_iff.1 h.config
  exact hn

theorem InputInv.lb_le (h : InputInv c s) : s.lb ≤ c.lbMax := by
  obtain ⟨_, hlb, _⟩ := configInRange_iff.1 h.config
  exact hlb

/-! ### Steps of the host -/

/-- What leaves the result of a call alone keeps the invariant, if it keeps the input's part and, while a call runs,
that call's. -/
theorem Inv.of_sameResult (h : Inv c s) (hr : SameResult s t) (hin : InputInv c t)
    (hbusy : s.phase = .busy → BusyInv t) : Inv c t := by
  obtain ⟨ho, hw, hp, hres, he, hph⟩ := hr
  refine .of_parts hin (h.output.congr ho hw hp he) (fun hb => hbusy (hph ▸ hb)) (fun hi => ?_) (fun hd => ?_)
  · obtain ⟨h1, h2, h3, h4, h5⟩ := h.idle (hph ▸ hi)
    exact ⟨hp.trans h1, hres.trans h2, he.trans h3, ho.trans h4, hw.trans h5⟩
  · obtain ⟨hok, herr⟩ := h.done (hph ▸ hd)
    rw [← hres, ← he] at hok
    rw [← hres, ← he, ← hp] at herr
    exact ⟨hok, herr⟩

/-- A write of the host between calls keeps the invariant if it keeps the input's part. -/
theorem Inv.of_write (h : Inv c s) (hb : s.phase ≠ .busy) (hr : SameResult s t) (hin : InputInv c t) : Inv c t :=
  h.of_sameResult hr hin fun hbusy => absurd hbusy hb

/-- The host's own lists are no part of the invariant. -/
theorem Inv.hostLists (h : Inv c s) (q : List HostOp) (seen : List HostReply) :
    Inv c { s with hostQueue := q, hostSeen := seen } := by
  refine h.of_sameResult ⟨rfl, rfl, rfl, rfl, rfl, rfl⟩ (h.input.congr ⟨rfl, rfl, rfl, rfl⟩) fun hb => ?_
  obtain ⟨h1, h2, h3, h4, h5⟩ := h.busy hb
  exact ⟨h1, h2, h3, h4, h5⟩

theorem inv_reset (c : Config) : Inv c State.reset :=
  .of_parts ⟨configInRange_iff.2 ⟨Nat.zero_le _, Nat.zero_le _, Nat.zero_le _⟩, List.Pairwise.nil, nofun⟩
    ⟨Nat.zero_le _, Nat.zero_le _, Nat.zero_le _, nofun, List.suffix_refl _⟩
    nofun (fun _ => ⟨rfl, rfl, rfl, rfl, rfl⟩) nofun

/-- A start establishes the invariant of a running call wherever its values are in range. -/
theorem Inv.startCall (h : Inv c s) : Inv c (startCall s) := by
  have hbusy : BusyInv (Machine.startCall s) :=
    { cursor := (Nat.eq_zero_or_pos s.n).elim (fun h0 => .inr ⟨rfl, h0⟩) .inl
      result_ok := rfl
      errPos_zero := rfl
      mirror := (keepNewest_of_le (Nat.zero_le _)).symm
      bounded := Nat.zero_le _ }
  exact .of_parts (h.input.congr ⟨rfl, rfl, rfl, rfl⟩)
    ⟨Nat.zero_le _, Nat.zero_le _, Nat.zero_le _, nofun, List.suffix_refl _⟩ (fun _ => hbusy) nofun nofun

/-- A symbol of `SYMW` bits within the space keeps the stream's part (R143). -/
theorem InputInv.write (h : InputInv c s) {a : Nat} (ha : a < c.strmCap) (sym : Symbol) :
    InputInv c { s with strm := Memory.write s.strm a (sym % 2 ^ c.symw) } := by
  refine ⟨h.config, Memory.write_keeps_wf _ _ h.strm_wf, fun cell hcell => ?_⟩
  rcases Memory.mem_write hcell with rfl | hold
  · exact ⟨ha, Nat.mod_lt _ (Nat.two_pow_pos _)⟩
  · exact h.strm_inRange cell hold

theorem hostStep_keeps_inv {op : HostOp} (h : Inv c s) (hs : hostStep c op s = .next t) : Inv c t := by
  obtain ⟨hob, hlb, hn⟩ := configInRange_iff.1 h.config
  have hstrm := h.input.strm_wf
  have hrange := h.input.strm_inRange
  rcases hostStep_cases hs with ⟨rfl, _⟩ | ⟨_, rfl⟩ | ⟨r, more, rfl, _⟩ | ⟨_, _, _, _, _, rfl⟩ | ⟨hb, v, hv, rfl⟩ |
    ⟨hb, v, hv, rfl⟩ | ⟨hb, v, hv, rfl⟩ | ⟨hb, a, sym, ha, rfl⟩
  · exact h
  · exact (inv_reset c).hostLists _ _
  · exact h.hostLists _ _
  · exact h.startCall
  · exact h.of_write hb ⟨rfl, rfl, rfl, rfl, rfl, rfl⟩ ⟨configInRange_iff.2 ⟨hv, hlb, hn⟩, hstrm, hrange⟩
  · exact h.of_write hb ⟨rfl, rfl, rfl, rfl, rfl, rfl⟩ ⟨configInRange_iff.2 ⟨hob, hv, hn⟩, hstrm, hrange⟩
  · exact h.of_write hb ⟨rfl, rfl, rfl, rfl, rfl, rfl⟩ ⟨configInRange_iff.2 ⟨hob, hlb, hv⟩, hstrm, hrange⟩
  · exact h.of_write hb ⟨rfl, rfl, rfl, rfl, rfl, rfl⟩ (h.input.write ha sym)

/-! ### Steps of the core -/

theorem tokenOutputBound_mono {lb lb' : Nat} (h : lb ≤ lb') : tokenOutputBound lb ≤ tokenOutputBound lb' :=
  max_le_max_left 1 (Nat.sub_le_sub_right (Nat.pow_le_pow_right Nat.zero_lt_two h) 1)

/-- A token that emits at most `B` bytes keeps the output within `B` bytes for each symbol read (R138). -/
theorem length_append_le_mul {out e : List Byte} {pos len B : Nat} (ho : out.length ≤ pos * B) (he : e.length ≤ B)
    (hl : 1 ≤ len) : (out ++ e).length ≤ (pos + len) * B := by
  have hB : B ≤ len * B := Nat.le_mul_of_pos_left B hl
  rw [List.length_append, Nat.add_mul]
  omega

/-- A complete token keeps the clauses about what a call has produced. -/
theorem OutputInv.afterComplete {i : Instr} (h : Inv c s) (hb : s.phase = .busy)
    (hwf : i.wellFormed s.ob s.lb = true) (hfit : s.pos + tokenLength s.ob s.lb i.flagClass ≤ s.n) :
    OutputInv c (afterComplete i s) := by
  have hmirror : Mirrors (Machine.afterComplete i s) := Mirrors.afterComplete (h.busy hb).mirror i
  have hemit : (emitted i s.win).length ≤ tokenOutputBound c.lbMax :=
    (emitted_length_le hwf s.win).trans (tokenOutputBound_mono h.input.lb_le)
  constructor
  · exact hfit.trans h.input.n_le
  · exact h.errPos_range
  · exact length_append_le_mul h.out_range hemit (tokenLength_pos _ _ _)
  · intro b hmem
    have hwin : AllPrintable s.win := fun b hw => h.printable_out b (h.win_suffix.subset hw)
    exact (List.mem_append.1 hmem).elim (h.printable_out b) (emitted_printable hwin b)
  · rw [hmirror]
    exact keepNewest_suffix _ _

/-- With symbols left after a complete token the call goes on as `BusyInv` says. -/
theorem BusyInv.afterComplete {i : Instr} (h : BusyInv s) (hwf : i.wellFormed s.ob s.lb = true)
    (hleft : (afterComplete i s).pos < (afterComplete i s).n) : BusyInv (afterComplete i s) :=
  { cursor := .inl hleft
    result_ok := h.result_ok
    errPos_zero := h.errPos_zero
    mirror := Mirrors.afterComplete h.mirror i
    bounded := length_append_le_mul h.bounded (emitted_length_le hwf s.win) (tokenLength_pos _ _ _) }

theorem Inv.endOfStreamTest_afterComplete {i : Instr} (h : Inv c s) (hb : s.phase = .busy)
    (hwf : i.wellFormed s.ob s.lb = true) (hfit : s.pos + tokenLength s.ob s.lb i.flagClass ≤ s.n) :
    Inv c (endOfStreamTest (afterComplete i s)) := by
  have hin : InputInv c (afterComplete i s) := h.input.congr ⟨rfl, rfl, rfl, rfl⟩
  have hout := OutputInv.afterComplete h hb hwf hfit
  have hbusy : (afterComplete i s).phase = .busy := hb
  rcases endOfStreamTest_cases (afterComplete i s) with ⟨e, _⟩ | ⟨e, hleft⟩ <;> rw [e]
  · exact .of_parts (hin.congr ⟨rfl, rfl, rfl, rfl⟩) (hout.congr rfl rfl rfl rfl) nofun nofun
      fun _ => ⟨fun _ => (h.busy hb).errPos_zero, fun hr => absurd rfl hr⟩
  · exact .of_parts hin hout (fun _ => (h.busy hb).afterComplete hwf (hleft hbusy)) (by simp [hb]) (by simp [hb])

theorem Inv.noRoomForFlag (h : Inv c s) (hb : s.phase = .busy) : Inv c (noRoomForFlag c s) := by
  rw [Machine.noRoomForFlag]
  split
  · exact .of_parts (h.input.congr ⟨rfl, rfl, rfl, rfl⟩)
      ⟨h.pos_range, h.pos_range, h.out_range, h.printable_out, h.win_suffix⟩ nofun nofun fun _ => ⟨nofun, fun _ => rfl⟩
  · exact .of_parts (h.input.congr ⟨rfl, rfl, rfl, rfl⟩) (h.output.congr rfl rfl rfl rfl) nofun nofun
      fun _ => ⟨fun _ => (h.busy hb).errPos_zero, fun hr => absurd rfl hr⟩

theorem cutShortError_ne_ok {i : Instr} (h : i ≠ .nopx) : cutShortError i ≠ .ok := by
  cases i with
  | lit code => exact nofun
  | bref offset length => exact nofun
  | nopx => exact absurd rfl h

theorem Inv.afterCutShort {i : Instr} (h : Inv c s) (hn : s.pos < s.n) (hi : i ≠ .nopx) :
    Inv c (afterCutShort i s) := by
  have hpos : s.pos + 1 ≤ c.strmCap := Nat.le_trans hn h.input.n_le
  have hout : s.out.length ≤ (s.pos + 1) * tokenOutputBound c.lbMax :=
    h.out_range.trans (Nat.mul_le_mul_right _ (Nat.le_succ _))
  exact .of_parts (h.input.congr ⟨rfl, rfl, rfl, rfl⟩) ⟨hpos, hpos, hout, h.printable_out, h.win_suffix⟩ nofun nofun
    fun _ => ⟨fun hok => absurd hok (cutShortError_ne_ok hi), fun _ => rfl⟩

theorem coreStep_keeps_inv (h : Inv c s) (hb : s.phase = .busy) (hs : coreStep c s = .next t) : Inv c t := by
  rcases coreStep_casesIn hs with ⟨_, rfl⟩ | ⟨_, i, _, _, _, hfit, hwf, rfl⟩ | ⟨_, i, hn, _, _, hi, _, rfl⟩
  · exact h.noRoomForFlag hb
  · exact h.endOfStreamTest_afterComplete hb hwf hfit
  · exact h.afterCutShort hn hi

theorem stepIn_keeps_inv (h : Inv c s) (hs : stepIn c s = .next t) : Inv c t := by
  rcases stepIn_cases hs with ⟨_, _, rfl⟩ | ⟨rest, _, _, rfl⟩ | ⟨_, hb, hc⟩ | ⟨rest, _, hb, hc⟩ |
    ⟨_, rest, _, _, hh⟩
  · exact h
  · exact h.hostLists rest s.hostSeen
  · exact coreStep_keeps_inv h hb hc
  · exact coreStep_keeps_inv (h.hostLists rest s.hostSeen) hb hc
  · exact hostStep_keeps_inv (h.hostLists rest s.hostSeen) hh

end Parts

/-- Settles O36: `inv_reset`. -/
theorem invariantHoldsAtReset : Obligations.InvariantHoldsAtReset := inv_reset

/-- Settles O37: `stepIn_keeps_inv` at every value of the parameters, the decided ones among them. -/
theorem everyStepKeepsTheInvariant : Obligations.EveryStepKeepsTheInvariant :=
  ⟨fun _ _ => stepIn_keeps_inv, fun _ _ _ => stepIn_keeps_inv⟩

end Sys2Proof.Machine
end

section
/-! SUPPORT. One step of the sequencer: the decoded token (R90), no room for a flag (R84), a token cut short (R101,
R111), precise errors (R166), and progress over a loaded stream (R91, R192). -/

namespace Sys2Proof.Machine

theorem step_pass {s : State} {rest : List HostOp} (h : s.hostQueue = .pass :: rest) (hb : s.phase = .busy) :
    step s = coreStep Config.decided { s with hostQueue := rest } := by
  rw [step_eq, stepIn_pass h, coreTurn]
  exact if_pos hb

/-- Settles O28: `coreStep_decoded`, on the state with the host's list as the step finds it. -/
theorem stepRunsTheDecodedToken : Obligations.StepRunsTheDecodedToken := by
  intro s t i syms hb hq hl hr hd he
  refine ⟨?_, fun rest => ?_⟩
  · rw [step_busy hq hb]
    exact coreStep_decoded hl hr hd he
  · obtain ⟨u, hu⟩ := exec_next i { s with hostQueue := rest }
    rw [hu, step_pass (s := { s with hostQueue := .pass :: rest }) rfl hb]
    exact coreStep_decoded (s := { s with hostQueue := rest }) hl hr hd hu

/-- With no room for a flag the step is `noRoomForFlag`, at every value of the parameters (R84). -/
theorem coreStep_noRoomForFlag {c : Config} {s : State} (h : s.n < s.pos + 1) :
    coreStep c s = .next (noRoomForFlag c s) :=
  if_neg (by rw [fits_iff]; omega)

/-- Settles O30: the two values of the parameter in `noRoomForFlag`. -/
theorem emptyStreamEndsTheCall : Obligations.EmptyStreamEndsTheCall := by
  intro c s hb hq hn
  rw [stepIn_busy hq hb, coreStep_noRoomForFlag hn]
  exact ⟨fun he => congrArg _ (if_pos he), fun he => congrArg _ (if_neg (by simp [he]))⟩

/-- Settles O31: `coreStep_cutShort` from the class of the flag; the fields of the token are never read. -/
theorem tokenCutShortEndsTheCall : Obligations.TokenCutShortEndsTheCall := by
  intro s flag hb hq hn hread
  obtain ⟨hzero, hone, _⟩ := decided_cls flag
  rw [step_busy hq hb, ← tokenLength_s1]
  exact ⟨fun hf hshort => coreStep_cutShort (i := .lit 0) hn hread (hzero.2 hf).symm nofun hshort,
    fun hf hshort => coreStep_cutShort (i := .bref 0 0) hn hread (hone.2 hf).symm nofun hshort⟩

theorem cutShortError_ne_eos (i : Instr) : cutShortError i ≠ .eos := by cases i <;> exact nofun

/-- Settles O33: of the three answers of a step of the core, a complete token ends no call with an error, and the other
two leave output and window alone. -/
theorem errorsArePrecise : Obligations.ErrorsArePrecise := by
  intro s t hb hq h hd herr
  rw [step_busy hq hb] at h
  rcases coreStep_cases h with ⟨_, rfl⟩ | ⟨_, i, _, _, _, _, _, rfl⟩ | ⟨_, i, _, _, _, _, _, rfl⟩
  · exact ⟨rfl, rfl, rfl, fun _ => rfl, fun hne => absurd rfl hne, .refl s⟩
  · exact absurd (endOfStreamTest_result_of_done (s := afterComplete i s) hb hd) herr
  · exact ⟨rfl, rfl, rfl, fun he => absurd he (cutShortError_ne_eos i), fun _ => rfl, .refl s⟩

/-- A step over a loaded stream finds every symbol it reads, so it does not fault, and no step of the core at the
unbounded output is refused. -/
theorem coreStep_next_of_loaded {s : State} (hl : Loaded s) : ∃ t, coreStep Config.decided s = .next t := by
  rcases coreStep_spec Config.decided s with ⟨_, he⟩ | ⟨_, _, a, h1, h2, hnone, _⟩ |
    ⟨_, i, _, _, _, _, _, _, _, _, he⟩ | ⟨_, i, _, _, _, _, _, he⟩
  · exact ⟨_, he⟩
  · have hsome := hl a h1 h2
    rw [hnone] at hsome
    cases hsome
  · exact ⟨_, he⟩
  · exact ⟨_, he⟩

/-- What is loaded stays loaded while the cursor moves forward. -/
theorem Loaded.of_later {s t : State} (hl : Loaded s) (hs : SameForTheHost s t) (hp : s.pos ≤ t.pos) : Loaded t := by
  obtain ⟨hstrm, hn, _⟩ := hs
  intro a h1 h2
  rw [hstrm]
  exact hl a (hp.trans h1) (Nat.lt_of_lt_of_eq h2 hn)

/-- Settles O34: `coreStep_next_of_loaded`; the stream stays and the cursor moves forward only. -/
theorem loadedCallsNeverStop : Obligations.LoadedCallsNeverStop := by
  intro s hb hq hl
  obtain ⟨t, ht⟩ := coreStep_next_of_loaded hl
  obtain ⟨hs, hp, _⟩ := coreStep_same ht
  exact ⟨t, (step_busy hq hb).trans ht, hl.of_later hs hp, hs, (coreStep_phase hb ht).imp_left And.left⟩

end Sys2Proof.Machine
end

section
/-! SUPPORT. A finite output capacity (R46, U9): the step of the unbounded output, refused where its output passes the
capacity. -/

namespace Sys2Proof.Machine

/-- An outcome as it is, or the refusal of a state whose output passes the capacity. -/
def refuseBeyond (cap : Nat) (o : Host.Outcome State Fault Refusal) : Host.Outcome State Fault Refusal :=
  match o with
  | .next t => if cap < t.out.length then .refused .outCapExceeded else .next t
  | .fault r => .fault r
  | .refused r => .refused r

theorem refuseBeyond_of_le {cap : Nat} {t : State} (h : t.out.length ≤ cap) :
    refuseBeyond cap (.next t) = .next t :=
  if_neg (Nat.not_lt.2 h)

theorem refuseBeyond_of_lt {cap : Nat} {t : State} (h : cap < t.out.length) :
    refuseBeyond cap (.next t) = .refused .outCapExceeded :=
  if_pos h

theorem refuseBeyond_next {cap : Nat} {o : Host.Outcome State Fault Refusal} {t : State}
    (h : refuseBeyond cap o = .next t) : o = .next t ∧ t.out.length ≤ cap := by
  cases o with
  | next u =>
    rcases Nat.lt_or_ge cap u.out.length with hlt | hle
    · rw [refuseBeyond_of_lt hlt] at h
      cases h
    · rw [refuseBeyond_of_le hle] at h
      cases h
      exact ⟨rfl, hle⟩
  | fault r => cases h
  | refused r => cases h

/-- The implementation without its output capacity. -/
def withoutOutCap (c : Config) : Config := { c with outCap := none }

section Capacity

variable {c : Config} {cap : Nat} {s : State}

theorem finishToken_eq_refuseBeyond (hc : c.outCap = some cap) (o : Host.Outcome State Fault Refusal) :
    finishToken c o = refuseBeyond cap (finishToken (withoutOutCap c) o) := by
  cases o with
  | next t =>
    obtain ⟨_, hout, _⟩ := endOfStreamTest_same t
    have hfree : finishToken (withoutOutCap c) (.next t) = .next (endOfStreamTest t) := rfl
    rw [hfree, refuseBeyond, hout, finishToken, exceedsOutCap, hc]
    simp only [decide_eq_true_eq]
  | fault r => rfl
  | refused r => rfl

/-- No room for a flag ends the call without output. -/
theorem refuseBeyond_noRoomForFlag (hs : s.out.length ≤ cap) :
    refuseBeyond cap (.next (noRoomForFlag c s)) = .next (noRoomForFlag c s) := by
  rw [noRoomForFlag]
  split
  · exact refuseBeyond_of_le hs
  · exact refuseBeyond_of_le hs

/-- Only a complete token adds to the output, so only it can be refused. -/
theorem runDecoded_eq_refuseBeyond (hc : c.outCap = some cap) (hs : s.out.length ≤ cap)
    (d : Except DecodeError (Instr × List Symbol)) :
    runDecoded c d s = refuseBeyond cap (runDecoded (withoutOutCap c) d s) := by
  cases d with
  | ok p => exact finishToken_eq_refuseBeyond hc (exec p.1 s)
  | error e =>
    cases e with
    | noFlag => exact (refuseBeyond_noRoomForFlag hs).symm
    | incompleteLiteral => exact (refuseBeyond_of_le (t := raiseIncompleteLiteral (takeFlag s)) hs).symm
    | incompleteBackReference => exact (refuseBeyond_of_le (t := raiseIncompleteBackReference (takeFlag s)) hs).symm

theorem coreStep_eq_refuseBeyond (hc : c.outCap = some cap) (hs : s.out.length ≤ cap) :
    coreStep c s = refuseBeyond cap (coreStep (withoutOutCap c) s) := by
  have hcls : (withoutOutCap c).cls = c.cls := rfl
  rw [coreStep, coreStep, hcls]
  split
  · cases tokenSymbols c.cls s with
    | none => rfl
    | some syms => exact runDecoded_eq_refuseBeyond hc hs _
  · exact (refuseBeyond_noRoomForFlag hs).symm

theorem coreTurn_eq_refuseBeyond (hc : c.outCap = some cap) (hs : s.out.length ≤ cap) :
    coreTurn c s = refuseBeyond cap (coreTurn (withoutOutCap c) s) := by
  rw [coreTurn, coreTurn]
  split
  · exact coreStep_eq_refuseBeyond hc hs
  · exact (refuseBeyond_of_le hs).symm

/-- No step of the host looks at the capacity. -/
theorem hostStep_unbounded (op : HostOp) : hostStep (withoutOutCap c) op s = hostStep c op s := by
  cases op <;> rfl

/-- No step of the host adds to the output. -/
theorem hostStep_out_length_le {op : HostOp} {t : State} (h : hostStep c op s = .next t) :
    t.out.length ≤ s.out.length := by
  rcases hostStep_result_cases h with ⟨ho, _⟩ | ⟨rfl, _⟩ | ⟨rfl, _⟩
  · rw [ho]
  · exact Nat.zero_le _
  · exact Nat.zero_le _

theorem hostStep_eq_refuseBeyond (op : HostOp) (hs : s.out.length ≤ cap) :
    hostStep c op s = refuseBeyond cap (hostStep (withoutOutCap c) op s) := by
  rw [hostStep_unbounded]
  cases h : hostStep c op s with
  | next t => exact (refuseBeyond_of_le ((hostStep_out_length_le h).trans hs)).symm
  | fault r => rfl
  | refused r => rfl

/-- A step under a finite capacity is the step without it, or the refusal of its output. -/
theorem stepIn_eq_refuseBeyond (hc : c.outCap = some cap) (hs : s.out.length ≤ cap) :
    stepIn c s = refuseBeyond cap (stepIn (withoutOutCap c) s) := by
  cases hq : s.hostQueue with
  | nil =>
    rw [stepIn_nil hq, stepIn_nil hq]
    exact coreTurn_eq_refuseBeyond hc hs
  | cons op rest =>
    by_cases hp : op = .pass
    · subst hp
      rw [stepIn_pass hq, stepIn_pass hq]
      exact coreTurn_eq_refuseBeyond hc hs
    · rw [stepIn_host hq hp, stepIn_host hq hp]
      exact hostStep_eq_refuseBeyond op hs

end Capacity

/-- Settles O35: the three readings of `stepIn_eq_refuseBeyond`. -/
theorem finiteOutputCapacityRefuses : Obligations.FiniteOutputCapacityRefuses := by
  intro c cap s hc hs
  rw [stepIn_eq_refuseBeyond hc hs]
  refine ⟨fun t h => refuseBeyond_next h, fun t h hlt => ?_, fun t h hle => ?_⟩
  · rw [withoutOutCap, h, refuseBeyond_of_lt hlt]
  · rw [withoutOutCap, h, refuseBeyond_of_le hle]

end Sys2Proof.Machine
end

section
/-! SUPPORT. How a call ends in time: each step of a running call consumes a symbol or ends the call, so the symbols
left bound the steps left (R90, R91). -/

namespace Sys2Proof.Machine

/-- A step of a running call with no host operation pending: it ends the call, or leaves fewer symbols and goes on. -/
theorem step_running {s t : State} (hb : s.phase = .busy) (hq : s.hostQueue = []) (h : step s = .next t) :
    t.hostQueue = [] ∧ t.n = s.n ∧
      (t.phase = .done ∨ (t.phase = .busy ∧ t.result = s.result ∧ t.pos < t.n ∧ s.pos < t.pos)) := by
  rw [step_busy hq hb] at h
  obtain ⟨_, hn, _, _, hq', _⟩ := (coreStep_same h).1
  refine ⟨hq'.trans hq, hn, ?_⟩
  rcases coreStep_phase hb h with ⟨hbusy, hres, _, hlt, hfwd⟩ | hdone
  · exact .inr ⟨hbusy, hres, hlt, hfwd⟩
  · exact .inl hdone

/-- A run that has ended its call had nothing left to do after it. -/
theorem run_done_eq {k : Nat} {s t : State} (hd : s.phase = .done) (hq : s.hostQueue = [])
    (h : runSteps k s = .next t) : t = s := by
  rw [run_idle hq (by simp [hd])] at h
  exact (Host.Outcome.next.inj h).symm

theorem run_of_done {s : State} (hd : s.phase = .done) (hq : s.hostQueue = []) (k : Nat) :
    runSteps k s = .next s :=
  run_idle hq (by simp [hd]) k

/-- Over a loaded stream as many steps as there are symbols left, and at least one, end the call. By induction on
the steps. -/
theorem run_ends {k : Nat} {s : State} (hb : s.phase = .busy) (hq : s.hostQueue = []) (hl : Loaded s)
    (h1 : 1 ≤ k) (hk : s.n - s.pos ≤ k) : ∃ t, runSteps k s = .next t ∧ t.phase = .done := by
  induction k generalizing s with
  | zero => exact absurd h1 (Nat.not_succ_le_zero 0)
  | succ k ih =>
    obtain ⟨t, ht⟩ := coreStep_next_of_loaded hl
    obtain ⟨hs, hp, _⟩ := coreStep_same ht
    have hstep := (step_busy hq hb).trans ht
    obtain ⟨hq', hn, hdone | ⟨hbusy, _, hlt, hfwd⟩⟩ := step_running hb hq hstep
    · exact ⟨t, (run_next hstep).trans (run_of_done hdone hq' k), hdone⟩
    · rw [run_next hstep]
      exact ih hbusy hq' (hl.of_later hs hp) (by omega) (by omega)

/-- Settles O38: `run_ends`. -/
theorem everyCallEnds : Obligations.EveryCallEnds := by
  intro s hb hq hl
  exact run_ends hb hq hl (Nat.le_max_left _ _) (Nat.le_max_right _ _)

/-- More steps than symbols left are enough to end a call that answers. -/
theorem run_ended {k : Nat} {s t : State} (hb : s.phase = .busy) (hq : s.hostQueue = []) (hk : s.n - s.pos < k)
    (h : runSteps k s = .next t) : t.phase = .done := by
  induction k generalizing s with
  | zero => exact absurd hk (Nat.not_lt_zero _)
  | succ k ih =>
    obtain ⟨u, hu, hrun⟩ := run_succ_next h
    obtain ⟨hq', hn, hdone | ⟨hbusy, _, hlt, hfwd⟩⟩ := step_running hb hq hu
    · rw [run_done_eq hdone hq' hrun]
      exact hdone
    · exact ih hbusy hq' (by omega) hrun

/-- Where some number of steps ends a call, any number above the symbols left gives the same state. -/
theorem run_enough {k j : Nat} {s t : State} (hb : s.phase = .busy) (hq : s.hostQueue = []) (hj : s.n - s.pos < j)
    (h : runSteps k s = .next t) (hd : t.phase = .done) : runSteps j s = .next t := by
  induction k generalizing s j with
  | zero =>
    cases h
    rw [hb] at hd
    cases hd
  | succ k ih =>
    obtain ⟨u, hu, hrun⟩ := run_succ_next h
    obtain ⟨j, rfl⟩ := Nat.exists_eq_add_of_le' (Nat.zero_lt_of_lt hj)
    rw [run_next hu]
    obtain ⟨hq', hn, hdone | ⟨hbusy, _, hlt, hfwd⟩⟩ := step_running hb hq hu
    · rw [run_done_eq hdone hq' hrun]
      exact run_of_done hdone hq' j
    · exact ih hbusy hq' (by omega) hrun

/-- The block as an accepted start leaves it, with no host operation pending (R191). -/
def started (s : State) : State := startCall { s with hostQueue := [] }

theorem decodeCall_done {s t : State} (h : decodeCall s = .next t) : t.phase = .done :=
  run_ended (s := started s) rfl rfl (Nat.lt_succ_of_le (Nat.sub_le _ _)) h

/-- A whole call is any run from its start that ends it. -/
theorem decodeCall_of_run {k : Nat} {s t : State} (h : runSteps k (started s) = .next t) (hd : t.phase = .done) :
    decodeCall s = .next t :=
  run_enough (s := started s) rfl rfl (Nat.lt_succ_of_le (Nat.sub_le _ _)) h hd

end Sys2Proof.Machine
end

section
/-! SUPPORT. Whole calls over whole tokens: the output is the fold of the window-free reading (R121, R136), and a
printable text encoded as literals comes back (R70, R102). -/

namespace Sys2Proof.Machine

/-- An assembled program reads as its tokens (R71). By induction on the program: each token's symbols decode as the
token, whatever follows. -/
theorem readsAs_of_assemble {ob lb : Nat} {tokens : List Instr} {syms : List Symbol}
    (h : assemble ob lb tokens = some syms) : ReadsAs Config.decided.cls ob lb tokens syms := by
  induction tokens generalizing syms with
  | nil => exact (Option.some.inj h).symm
  | cons i rest ih =>
    rw [assemble] at h
    split at h
    · next hwf =>
      obtain ⟨more, hmore, rfl⟩ := Option.map_eq_some_iff.1 h
      exact ⟨more, decode_encode ob lb i more hwf, ih hmore⟩
    · cases h

/-- The output of the window-free reading of tokens, one after another. -/
def windowFreeOutput (tokens : List Instr) (out : List Byte) : List Byte :=
  tokens.foldl (fun out i => windowFreeToken i out) out

/-- Whole tokens, one after another, give the window-free output and keep the window on its newest bytes. -/
theorem Mirrors.afterTokens {cls : Symbol → SymClass} {tokens : List Instr} {syms : List Symbol} {s : State}
    (hm : Mirrors s) (h : ReadsAs cls s.ob s.lb tokens syms) :
    (afterTokens tokens s).out = windowFreeOutput tokens s.out ∧ Mirrors (afterTokens tokens s) := by
  induction tokens generalizing s syms with
  | nil => exact ⟨rfl, hm⟩
  | cons i rest ih =>
    obtain ⟨more, hd, hrest⟩ := h
    rw [afterTokens_cons, windowFreeOutput, List.foldl_cons, ← hm.afterComplete_out (wellFormed_of_decode hd)]
    exact ih (hm.afterComplete i) hrest

@[simp] theorem afterTokens_window (tokens : List Instr) (s : State) :
    (afterTokens tokens s).window = s.window := by
  induction tokens generalizing s with
  | nil => rfl
  | cons i rest ih => rw [afterTokens_cons, ih, afterComplete_window]

theorem started_mirrors (s : State) : Mirrors (started s) := (keepNewest_of_le (Nat.zero_le _)).symm

/-- A whole call over whole tokens, at least one, with everything it leaves. -/
theorem decodeCall_readsAs {tokens : List Instr} {syms : List Symbol} {s : State} (hne : tokens ≠ [])
    (h : ReadsAs Config.decided.cls s.ob s.lb tokens syms) (hn : s.n = syms.length)
    (hr : Memory.readRun s.strm 0 s.n = some syms) :
    ∃ t, decodeCall s = .next t ∧ t.phase = .done ∧ t.result = .ok ∧ t.errPos = 0 ∧ t.pos = s.n ∧
      t.out = windowFreeOutput tokens [] ∧ t.win = keepNewest s.window (windowFreeOutput tokens []) := by
  obtain ⟨hout, hwin⟩ := (started_mirrors s).afterTokens h
  have hpos := afterTokens_pos (s := started s) h
  refine ⟨_, decodeCall_tokens hne h hn hr, rfl, rfl, afterTokens_errPos _ _, ?_, hout, ?_⟩
  · rw [haltOk_pos, hn]
    exact hpos.trans (Nat.zero_add _)
  · rw [Mirrors, hout, afterTokens_window] at hwin
    exact hwin

/-- Settles O40: `readsAs_of_assemble` and `decodeCall_readsAs`. -/
theorem assembledProgramsRunTokenByToken : Obligations.AssembledProgramsRunTokenByToken := by
  refine ⟨fun _ _ _ _ => readsAs_of_assemble, fun tokens syms s hne h hn hr => ?_⟩
  obtain ⟨t, ht, hd, _, _, _, hout, hwin⟩ := decodeCall_readsAs hne h hn hr
  exact ⟨t, ht, hd, hout, by rw [hout]; exact hwin⟩

/-! ### Literals -/

/-- Each literal takes 9 symbols (R61). -/
theorem ReadsAs.strTokens_length {cls : Symbol → SymClass} {ob lb : Nat} {text : List Byte} {syms : List Symbol}
    (h : ReadsAs cls ob lb (strTokens text) syms) : syms.length = 9 * text.length := by
  induction text generalizing syms with
  | nil =>
    obtain rfl : syms = [] := h
    rfl
  | cons b rest ih =>
    obtain ⟨more, hd, hrest⟩ := h
    obtain ⟨front, rfl, _, hlen⟩ := decode_split hd
    have hfront : front.length = 9 := hlen
    rw [List.length_append, hfront, ih hrest, List.length_cons]
    omega

/-- Printable literals append their text. -/
theorem windowFreeOutput_strTokens {text : List Byte} (h : AllPrintable text) (out : List Byte) :
    windowFreeOutput (strTokens text) out = out ++ text := by
  induction text generalizing out with
  | nil => exact (List.append_nil out).symm
  | cons b rest ih =>
    have hb : windowFreeToken (.lit b) out = out ++ [b] := if_pos (h b List.mem_cons_self)
    have hrest := ih (fun c hc => h c (List.mem_cons_of_mem b hc)) (out ++ [b])
    rw [List.append_assoc, List.singleton_append] at hrest
    rw [← hrest, ← hb]
    rfl

/-- A call over the empty stream ends at once with the end-of-stream error (R84). -/
theorem decodeCall_empty {s : State} (hn : s.n = 0) : decodeCall s = .next (raiseError .eos 0 (started s)) :=
  decodeCall_of_run (k := 1) (run_next ((step_busy rfl rfl).trans (coreStep_noRoom (s := started s) hn.le))) rfl

/-- Settles O39: the empty text by `decodeCall_empty`, any other by `decodeCall_readsAs` of its literals. -/
theorem literalStreamsRoundTrip : Obligations.LiteralStreamsRoundTrip := by
  intro text syms s hpr hasm hn hr
  have hreads := readsAs_of_assemble hasm
  have hlen : s.n = 9 * text.length := hn.trans (ReadsAs.strTokens_length hreads)
  cases text with
  | nil =>
    exact ⟨_, decodeCall_empty hlen, rfl, rfl, hlen, hlen.symm, rfl, (keepNewest_of_le (Nat.zero_le _)).symm,
      fun h => absurd rfl h, fun _ => rfl⟩
  | cons b rest =>
    have hne : strTokens (b :: rest) ≠ [] := nofun
    obtain ⟨t, ht, hd, hres, herr, hpos, hout, hwin⟩ := decodeCall_readsAs hne hreads hn hr
    rw [windowFreeOutput_strTokens hpr, List.nil_append] at hout hwin
    exact ⟨t, ht, hd, hout, hlen, hpos, herr, hwin, fun _ => hres, nofun⟩

end Sys2Proof.Machine
end

section
/-! SUPPORT. Cut streams (R170): a call over the first symbols of a stream runs through the same tokens up to the
cut. -/

namespace Sys2Proof.Machine

/-- The block with its stream cut, or lengthened, to `m` symbols. -/
def cutAt (m : Nat) (s : State) : State := { s with strmLen := m }

/-- Whose step it is does not depend on the cut. -/
theorem step_cutAt {m : Nat} {s : State} (hb : s.phase = .busy) (hq : s.hostQueue = []) :
    step (cutAt m s) = coreStep Config.decided (cutAt m s) :=
  step_busy (s := cutAt m s) hq hb

/-- A token that lies before the end of the stream completes, from its symbols. -/
theorem coreStep_complete {s : State} {i : Instr} {syms : List Symbol}
    (hfit : s.pos + tokenLength s.ob s.lb i.flagClass ≤ s.n)
    (hrun : Memory.readRun s.strm s.pos (tokenLength s.ob s.lb i.flagClass) = some syms)
    (hd : decode Config.decided.cls s.ob s.lb syms = .ok (i, [])) :
    coreStep Config.decided s = .next (endOfStreamTest (afterComplete i s)) := by
  obtain ⟨hlen, hsyms⟩ := Memory.readRun_eq_some.1 hrun
  exact coreStep_decoded (hlen ▸ hfit) (fun k hk => hsyms k (hlen ▸ hk)) hd (exec_complete hfit)

/-- A step that leaves the call running with its cursor before the cut is a step of the cut stream too. -/
theorem coreStep_cutAt_of_lt {m : Nat} {s t : State} (h : coreStep Config.decided s = .next t) (hb : t.phase = .busy)
    (hm : t.pos < m) : coreStep Config.decided (cutAt m s) = .next (cutAt m t) := by
  rcases coreStep_spec Config.decided s with ⟨_, he⟩ | ⟨_, he, _⟩ | ⟨_, i, _, _, _, _, _, _, hrun, hd, he⟩ |
    ⟨_, i, _, _, _, _, _, he⟩ <;> rw [he] at h <;> cases h
  · cases hb
  · rcases endOfStreamTest_cases (afterComplete i s) with ⟨e, _⟩ | ⟨e, _⟩ <;> rw [e] at hb hm ⊢
    · cases hb
    · have hafter : afterComplete i (cutAt m s) = cutAt m (afterComplete i s) := rfl
      rw [coreStep_complete (s := cutAt m s) (Nat.le_of_lt hm) hrun hd, hafter,
        endOfStreamTest_before (s := cutAt m (afterComplete i s)) hm]
  · cases hb

/-- Everything one step of the core can do where the stream is cut at `m`: it goes on as over the whole stream, or it
ends the call with an output that the step over the whole stream continues. -/
theorem coreStep_cutAt {m : Nat} {s t : State} (hb : s.phase = .busy) (hm : m ≤ s.n)
    (h : coreStep Config.decided s = .next t) :
    (t.phase = .busy ∧ coreStep Config.decided (cutAt m s) = .next (cutAt m t)) ∨
    (∃ u, coreStep Config.decided (cutAt m s) = .next u ∧ u.phase = .done ∧ u.out <+: t.out) := by
  obtain ⟨_, _, hgrow⟩ := coreStep_same h
  rcases Nat.lt_or_ge s.pos m with hroom | hend
  · rcases coreStep_spec Config.decided s with ⟨hn, _⟩ | ⟨_, he, _⟩ |
      ⟨flag, i, syms, _, hread, hflag, _, _, hrun, hd, he⟩ | ⟨flag, i, _, hread, hflag, hi, hshort, he⟩
    · exact absurd (hm.trans hn) (Nat.not_le.2 hroom)
    · rw [he] at h
      cases h
    · have ht : coreStep Config.decided s = .next (endOfStreamTest (afterComplete i s)) := he
      obtain rfl := Host.Outcome.next.inj (ht.symm.trans h)
      rcases Nat.lt_trichotomy (s.pos + tokenLength s.ob s.lb i.flagClass) m with hlt | heq | hgt
      · rw [endOfStreamTest_before (s := afterComplete i s) (Nat.lt_of_lt_of_le hlt hm)] at h ⊢
        exact .inl ⟨hb, coreStep_cutAt_of_lt h hb hlt⟩
      · have hcut := coreStep_complete (s := cutAt m s) heq.le hrun hd
        rw [endOfStreamTest_atEnd (s := afterComplete i (cutAt m s)) hb heq.ge] at hcut
        obtain ⟨_, hout, _⟩ := endOfStreamTest_same (afterComplete i s)
        exact .inr ⟨_, hcut, rfl, by rw [hout]; exact List.prefix_refl _⟩
      · have hi : i ≠ .nopx := by
          rintro rfl
          exact Nat.not_le.2 hgt hroom
        exact .inr ⟨_, coreStep_cutShort (s := cutAt m s) hroom hread hflag hi hgt, rfl, hgrow⟩
    · exact .inr ⟨_, coreStep_cutShort (s := cutAt m s) hroom hread hflag hi (Nat.lt_of_le_of_lt hm hshort), rfl,
        hgrow⟩
  · exact .inr ⟨_, coreStep_noRoom (s := cutAt m s) hend, rfl, hgrow⟩

/-- The output only grows over a run without the host. -/
theorem run_out_prefix {k : Nat} {s t : State} (hq : s.hostQueue = []) (h : runSteps k s = .next t) :
    s.out <+: t.out := by
  induction k generalizing s with
  | zero =>
    cases h
    exact List.prefix_refl _
  | succ k ih =>
    obtain ⟨u, hu, hrun⟩ := run_succ_next h
    have hrest := ih ((step_nil_sameForTheHost hq hu).hostQueue_eq.trans hq) hrun
    rcases step_nil_cases hq hu with ⟨_, rfl⟩ | ⟨_, hc⟩
    · exact hrest
    · obtain ⟨_, _, hgrow⟩ := coreStep_same hc
      exact hgrow.trans hrest

/-- A call over a cut stream ends with a first part of the output of the whole. By induction on the run of the whole,
which the run of the cut follows until it ends. -/
theorem run_cutAt_prefix {k m : Nat} {s t : State} (hb : s.phase = .busy) (hq : s.hostQueue = []) (hm : m ≤ s.n)
    (h : runSteps k s = .next t) (hd : t.phase = .done) :
    ∃ j u, runSteps j (cutAt m s) = .next u ∧ u.phase = .done ∧ u.out <+: t.out := by
  induction k generalizing s with
  | zero =>
    cases h
    rw [hb] at hd
    cases hd
  | succ k ih =>
    obtain ⟨x, hx, hrun⟩ := run_succ_next h
    obtain ⟨hq', hn, _⟩ := step_running hb hq hx
    rw [step_busy hq hb] at hx
    rcases coreStep_cutAt hb hm hx with ⟨hbusy, hc⟩ | ⟨u, hc, hdone, hpre⟩
    · obtain ⟨j, u, hj, hu⟩ := ih hbusy hq' (hm.trans hn.ge) hrun
      exact ⟨j + 1, u, (run_next ((step_cutAt hb hq).trans hc)).trans hj, hu⟩
    · exact ⟨1, u, run_next ((step_cutAt hb hq).trans hc), hdone, hpre.trans (run_out_prefix hq' hrun)⟩

/-- Settles O43: `run_cutAt_prefix` from the start of the call. -/
theorem prefixStreamsGivePrefixOutputs : Obligations.PrefixStreamsGivePrefixOutputs := by
  intro s t m hm h
  obtain ⟨j, u, hj, hd, hpre⟩ := run_cutAt_prefix (s := started s) rfl rfl hm h (decodeCall_done h)
  exact ⟨u, decodeCall_of_run (s := cutAt m s) hj hd, hpre⟩

/-- A call that runs with symbols left and ends in an error has it past its cursor, and the same run over the stream cut
there ends the same way. By induction on the run: the tokens before the error lie before the cut, and
the token cut short has its flag before the cut and its body behind it. -/
theorem run_cutAt_error {k : Nat} {s t : State} (hb : s.phase = .busy) (hq : s.hostQueue = []) (hn : s.pos < s.n)
    (h : runSteps k s = .next t) (hd : t.phase = .done) (herr : t.result ≠ .ok) :
    s.pos < t.errPos ∧ runSteps k (cutAt t.errPos s) = .next (cutAt t.errPos t) := by
  induction k generalizing s with
  | zero =>
    cases h
    rw [hb] at hd
    cases hd
  | succ k ih =>
    obtain ⟨x, hx, hrun⟩ := run_succ_next h
    obtain ⟨hq', _, hdone | ⟨hbusy, _, hlt, hfwd⟩⟩ := step_running hb hq hx
    · obtain rfl := run_done_eq hdone hq' hrun
      rw [step_busy hq hb] at hx
      rcases coreStep_cases hx with ⟨hend, _⟩ | ⟨_, i, _, _, _, _, _, rfl⟩ | ⟨_, i, _, hread, hflag, hi, hshort, rfl⟩
      · exact absurd hend (Nat.not_le.2 hn)
      · exact absurd (endOfStreamTest_result_of_done (s := afterComplete i s) hb hd) herr
      · have hcut : coreStep Config.decided (cutAt (s.pos + 1) s) = .next (cutAt (s.pos + 1) (afterCutShort i s)) :=
          coreStep_cutShort (Nat.lt_succ_self s.pos) hread hflag hi (Nat.lt_of_le_of_lt hn hshort)
        refine ⟨Nat.lt_succ_self s.pos, ?_⟩
        exact (run_next ((step_cutAt hb hq).trans hcut)).trans
          (run_of_done (s := cutAt (s.pos + 1) (afterCutShort i s)) rfl hq k)
    · obtain ⟨hpast, hrest⟩ := ih hbusy hq' hlt hrun
      rw [step_busy hq hb] at hx
      have hcut := coreStep_cutAt_of_lt hx hbusy hpast
      exact ⟨hfwd.trans hpast, (run_next ((step_cutAt hb hq).trans hcut)).trans hrest⟩

/-- Settles O42: the empty stream is its own cut, and `run_cutAt_error` from the start of any other. -/
theorem cutAtTheErrorGivesTheSameResult : Obligations.CutAtTheErrorGivesTheSameResult := by
  intro s t h herr
  rcases Nat.eq_zero_or_pos s.n with hn | hn
  · rw [decodeCall_empty hn] at h
    cases h
    exact ⟨_, decodeCall_empty (s := cutAt 0 s) rfl, rfl, rfl, rfl⟩
  · have hd := decodeCall_done h
    obtain ⟨_, hrun⟩ := run_cutAt_error (s := started s) rfl rfl hn h hd herr
    exact ⟨cutAt t.errPos t, decodeCall_of_run (s := cutAt t.errPos s) hrun hd, rfl, rfl, rfl⟩

end Sys2Proof.Machine
end

section
/-! SUPPORT. The host between calls: reset (R29, R190), its operations as steps (R140), and the writes of the
configuration and of the stream (R21, R22, R23, R143). -/

namespace Sys2Proof.Machine

/-! ### Reset and the order of the steps -/

theorem regValue_reset (r : Reg) : regValue r State.reset = 0 := by cases r <;> rfl

/-- Settles O44: every register's value at reset is 0, which no width changes. -/
theorem resetValues : Obligations.ResetValues := by
  refine ⟨fun c r => ?_, rfl, rfl, rfl, rfl, fun _ => rfl, rfl, rfl⟩
  rw [regRead, regValue_reset]
  exact Nat.zero_mod _

/-- Settles O56: a pending hardware reset is the step (`stepIn_host`). -/
theorem hardwareResetAtAnyTime : Obligations.HardwareResetAtAnyTime := by
  intro c s rest hq
  exact stepIn_host hq nofun

/-- Settles O45: `stepIn_host` and `stepIn_idle`. -/
theorem hostOperationsComeFirst : Obligations.HostOperationsComeFirst := by
  intro c s
  exact ⟨fun _ _ hq hp => stepIn_host hq hp, stepIn_idle, step_eq s⟩

/-! ### Register reads -/

/-- `STATUS` is read in every phase (R142). -/
theorem stepIn_readStatus {c : Config} {s : State} {rest : List HostOp}
    (hq : s.hostQueue = .readReg .status :: rest) :
    stepIn c s = .next (afterReads [.reg .status (regRead c .status s)] rest s) := by
  rw [stepIn_host hq nofun, hostStep, hostReadReg, if_pos rfl, regRead_hostQueue]
  rfl

/-- Settles O51: `stepIn_readReg` between calls, `stepIn_readStatus` at any time. -/
theorem registerReadsReturnTheirValue : Obligations.RegisterReadsReturnTheirValue := by
  intro c s r rest hq h
  rcases h with hp | rfl
  · exact stepIn_readReg hp hq
  · exact stepIn_readStatus hq

/-- Settles O53: the value of `STATUS` in each phase, and in `DONE` for each result. -/
theorem statusShowsPhaseAndResult : Obligations.StatusShowsPhaseAndResult := by
  intro c s
  rw [regRead_status, statusWord]
  cases s.phase with
  | idle => simp [resultCode]
  | busy => simp [resultCode, Nat.testBit]
  | done => cases s.result <;> simp [resultCode, Nat.testBit]

/-! ### While a call runs -/

theorem unlessBusy_of_busy {s : State} (h : s.phase = .busy) (o : Host.Outcome State Fault Refusal) :
    unlessBusy s o = .refused .hostAccessWhileBusy :=
  if_pos h

/-- Every access of the host but the four of R142 is refused while a call runs. -/
theorem hostStep_busy_refused {c : Config} {op : HostOp} {s : State} (hb : s.phase = .busy) (hpass : op ≠ .pass)
    (hreset : op ≠ .hardReset) (hstatus : op ≠ .readReg .status) (hctrl : ∀ w, op ≠ .writeReg .ctrl w) :
    hostStep c op s = .refused .hostAccessWhileBusy := by
  cases op with
  | pass => exact absurd rfl hpass
  | hardReset => exact absurd rfl hreset
  | readReg r =>
    have hr : r ≠ .status := fun h => hstatus (congrArg HostOp.readReg h)
    rw [hostStep, hostReadReg, if_neg hr]
    exact unlessBusy_of_busy hb _
  | writeReg r w =>
    cases r with
    | ctrl => exact absurd rfl (hctrl w)
    | _ => exact unlessBusy_of_busy hb _
  | readStrm a => exact unlessBusy_of_busy hb _
  | writeStrm a sym => exact unlessBusy_of_busy hb _
  | readOut a => exact unlessBusy_of_busy hb _
  | readResult => exact onlyWhenDone_of_busy hb _
  | readOutput => exact onlyWhenDone_of_busy hb _

/-- Settles O48: `hostStep_busy_refused`. -/
theorem busyHostAccessIsRefused : Obligations.BusyHostAccessIsRefused := by
  intro c s op rest hb hq hpass hreset hstatus hctrl
  rw [stepIn_host hq hpass]
  exact hostStep_busy_refused (s := { s with hostQueue := rest }) hb hpass hreset hstatus hctrl

/-- A write of `CTRL` that is no accepted start changes nothing (R20). -/
theorem writeCtrl_ignored {c : Config} {w : Word} {s : State} (h : s.phase = .busy ∨ w % 2 = 0) :
    writeCtrl c w s = .next s := by
  refine if_neg fun ⟨hw, hp⟩ => h.elim hp fun h0 => ?_
  rw [narrow_ctrl, h0] at hw
  cases hw

/-- Settles O47: `writeCtrl_ignored`. -/
theorem startIsIgnoredWhileBusy : Obligations.StartIsIgnoredWhileBusy := by
  intro c s w rest hq h
  rw [stepIn_host hq nofun]
  exact writeCtrl_ignored (s := { s with hostQueue := rest }) h

/-! ### Writes between calls -/

theorem narrow_cfgOb (c : Config) (w : Word) : narrow c .cfgOb w = w % 2 ^ Nat.clog 2 (c.obMax + 1) := by
  rw [← fieldWidth_eq_clog]
  rfl

theorem narrow_cfgLb (c : Config) (w : Word) : narrow c .cfgLb w = w % 2 ^ Nat.clog 2 (c.lbMax + 1) := by
  rw [← fieldWidth_eq_clog]
  rfl

section Writes

variable {c : Config} {s : State} {w : Word} {rest : List HostOp} (hp : s.phase ≠ .busy)
include hp

theorem stepIn_writeCfgOb (hq : s.hostQueue = .writeReg .cfgOb w :: rest) :
    stepIn c s =
      if narrow c .cfgOb w ≤ c.obMax then .next { s with cfgOb := narrow c .cfgOb w, hostQueue := rest }
      else .refused .configOutOfRange := by
  rw [stepIn_host hq nofun]
  exact unlessBusy_of_ne_busy (s := { s with hostQueue := rest }) hp _

theorem stepIn_writeCfgLb (hq : s.hostQueue = .writeReg .cfgLb w :: rest) :
    stepIn c s =
      if narrow c .cfgLb w ≤ c.lbMax then .next { s with cfgLb := narrow c .cfgLb w, hostQueue := rest }
      else .refused .configOutOfRange := by
  rw [stepIn_host hq nofun]
  exact unlessBusy_of_ne_busy (s := { s with hostQueue := rest }) hp _

theorem stepIn_writeStrmLen (hq : s.hostQueue = .writeReg .strmLen w :: rest) :
    stepIn c s =
      if narrow c .strmLen w ≤ c.strmCap then .next { s with strmLen := narrow c .strmLen w, hostQueue := rest }
      else .refused .configOutOfRange := by
  rw [stepIn_host hq nofun]
  exact unlessBusy_of_ne_busy (s := { s with hostQueue := rest }) hp _

/-- A symbol is stored at any index of the space (R143). -/
theorem stepIn_writeStrm {a : Nat} {sym : Symbol} (ha : a < c.strmCap)
    (hq : s.hostQueue = .writeStrm a sym :: rest) :
    stepIn c s = .next { s with strm := Memory.write s.strm a (sym % 2 ^ c.symw), hostQueue := rest } := by
  rw [stepIn_host hq nofun]
  exact (unlessBusy_of_ne_busy (s := { s with hostQueue := rest }) hp _).trans (if_pos ha)

/-- What a read of an index of the space answers, before its symbol is looked for (R40, R45). -/
theorem stepIn_readStrm {a : Nat} (ha : a < c.strmCap) (hq : s.hostQueue = .readStrm a :: rest) :
    stepIn c s =
      if s.n ≤ a then .refused .strmSymbolUnspecified
      else
        match Memory.read s.strm a with
        | some sym => .next (afterReads [.strm a sym] rest s)
        | none => .refused .strmSymbolUnspecified := by
  rw [stepIn_host hq nofun]
  exact (unlessBusy_of_ne_busy (s := { s with hostQueue := rest }) hp _).trans (if_neg (Nat.not_le.2 ha))

end Writes

/-- Settles O49: the three writes, with the widths as R6 writes them, and `narrow_decided_le`. -/
theorem configurationWritesTakeTheirField : Obligations.ConfigurationWritesTakeTheirField := by
  refine ⟨fun c s w rest hp => ⟨fun hq => ?_, fun hq => ?_, stepIn_writeStrmLen hp⟩, fun w => ?_⟩
  · rw [← narrow_cfgOb]
    exact stepIn_writeCfgOb hp hq
  · rw [← narrow_cfgLb]
    exact stepIn_writeCfgLb hp hq
  · rw [← narrow_cfgOb, ← narrow_cfgLb]
    exact narrow_decided_le w

/-- Settles O55: `stepIn_writeStrm` with `Memory.read_write`, and `stepIn_readStrm` by the index and the symbol. -/
theorem hostWritesAndReadsTheStream : Obligations.HostWritesAndReadsTheStream := by
  intro c s a sym rest hp ha
  refine ⟨fun hq => ⟨_, stepIn_writeStrm hp ha hq, rfl, fun b => Memory.read_write s.strm a b _⟩, fun hq => ?_⟩
  rw [stepIn_readStrm hp ha hq]
  refine ⟨fun hn hread => ?_, fun h => ?_⟩
  · rw [if_neg (Nat.not_le.2 hn), hread]
    rfl
  · split
    · rfl
    · next hn => rw [h.resolve_left hn]

end Sys2Proof.Machine
end

section
/-! SUPPORT. `CONFIGURE`, `LOAD` and `START` (R141, R143, R144) at the decided parameters, where every write is
accepted: one step each. -/

namespace Sys2Proof.Machine

theorem narrow_decided_cfgOb (w : Word) : narrow Config.decided .cfgOb w = w % 32 := by
  rw [narrow, show 2 ^ Reg.width Config.decided .cfgOb = 32 by decide]

theorem narrow_decided_cfgLb (w : Word) : narrow Config.decided .cfgLb w = w % 32 := by
  rw [narrow, show 2 ^ Reg.width Config.decided .cfgLb = 32 by decide]

theorem step_writeCfgOb {s : State} {w : Word} {rest : List HostOp} (hp : s.phase ≠ .busy)
    (hq : s.hostQueue = .writeReg .cfgOb w :: rest) :
    step s = .next { s with cfgOb := w % 32, hostQueue := rest } := by
  obtain ⟨hle, _⟩ := narrow_decided_le w
  rw [step_eq, stepIn_writeCfgOb hp hq, if_pos hle, narrow_decided_cfgOb]

theorem step_writeCfgLb {s : State} {w : Word} {rest : List HostOp} (hp : s.phase ≠ .busy)
    (hq : s.hostQueue = .writeReg .cfgLb w :: rest) :
    step s = .next { s with cfgLb := w % 32, hostQueue := rest } := by
  obtain ⟨_, hle, _⟩ := narrow_decided_le w
  rw [step_eq, stepIn_writeCfgLb hp hq, if_pos hle, narrow_decided_cfgLb]

theorem step_writeStrmLen {s : State} {w : Word} {rest : List HostOp} (hp : s.phase ≠ .busy) (hw : w < 2 ^ 32)
    (hq : s.hostQueue = .writeReg .strmLen w :: rest) :
    step s = .next { s with strmLen := w, hostQueue := rest } := by
  obtain ⟨_, _, hle⟩ := narrow_decided_le w
  have hwhole : narrow Config.decided .strmLen w = w := narrow_of_lt hw
  rw [step_eq, stepIn_writeStrmLen hp hq, if_pos hle, hwhole]

theorem step_start {s : State} {w : Word} {rest : List HostOp} (hq : s.hostQueue = .writeReg .ctrl w :: rest)
    (hw : w % 2 = 1) (hp : s.phase ≠ .busy) (hin : configInRange Config.decided s = true) :
    step s = .next (startCall { s with hostQueue := rest }) :=
  (stepIn_start hq hw hp).trans (if_pos hin)

/-- The symbol writes of `LOAD` store the symbols, cut to 8 bits, from index `a` on, one step each. By induction over
the symbols. -/
theorem run_loadOpsFrom {syms : List Symbol} {a : Nat} {s : State} {rest : List HostOp} (hp : s.phase ≠ .busy)
    (ha : a + syms.length < 2 ^ 32) (hq : s.hostQueue = loadOpsFrom a syms ++ rest) :
    runSteps syms.length s =
      .next { s with strm := Memory.writeRun s.strm a (syms.map (· % 256)), hostQueue := rest } := by
  induction syms generalizing a s with
  | nil =>
    obtain rfl : s.hostQueue = rest := hq
    rfl
  | cons sym syms ih =>
    rw [List.length_cons] at ha ⊢
    have hcap : a < Config.decided.strmCap := by
      show a < 2 ^ 32 - 1
      omega
    have hstep : step s = _ := stepIn_writeStrm (c := Config.decided) hp hcap hq
    rw [run_next hstep]
    exact ih (a := a + 1) hp (by omega) rfl

/-- The operations of the three sequences, the first one first. -/
theorem configure_load_start_eq (ob lb : Word) (syms : List Symbol) (rest : List HostOp) :
    configureOps ob lb ++ loadOps syms ++ startOps ++ rest =
      .writeReg .cfgOb ob :: .writeReg .cfgLb lb ::
        (loadOpsFrom 0 syms ++ .writeReg .strmLen syms.length :: .writeReg .ctrl 1 :: rest) := by
  simp [configureOps, loadOps, startOps]

/-- The block configured and loaded, with `rest` pending. -/
def configured (ob lb : Word) (syms : List Symbol) (rest : List HostOp) (s : State) : State :=
  { s with
    cfgOb := ob % 32
    cfgLb := lb % 32
    strmLen := syms.length
    strm := Memory.writeRun s.strm 0 (syms.map (· % 256))
    hostQueue := rest }

/-- What was written is in range, so the start is accepted (R151). -/
theorem configInRange_configured (ob lb : Word) {syms : List Symbol} (hlen : syms.length < 2 ^ 32)
    (rest : List HostOp) (s : State) : configInRange Config.decided (configured ob lb syms rest s) = true :=
  configInRange_iff.2 ⟨Nat.le_of_lt_succ (Nat.mod_lt ob (by decide)), Nat.le_of_lt_succ (Nat.mod_lt lb (by decide)),
    Nat.le_of_lt_succ hlen⟩

theorem run_configure_load_start {s : State} {ob lb : Word} {syms : List Symbol} {rest : List HostOp}
    (hp : s.phase ≠ .busy) (hlen : syms.length < 2 ^ 32)
    (hq : s.hostQueue = configureOps ob lb ++ loadOps syms ++ startOps ++ rest) :
    runSteps (syms.length + 4) s = .next (startCall (configured ob lb syms rest s)) := by
  rw [configure_load_start_eq] at hq
  have hstart : step (configured ob lb syms (.writeReg .ctrl 1 :: rest) s) =
      .next (startCall (configured ob lb syms rest s)) :=
    step_start (w := 1) (s := configured ob lb syms _ s) rfl rfl hp (configInRange_configured ob lb hlen _ s)
  rw [run_next (step_writeCfgOb hp hq),
    run_next (step_writeCfgLb (s := { s with cfgOb := ob % 32, hostQueue := _ }) hp rfl),
    run_add (run_loadOpsFrom (s := { s with cfgOb := ob % 32, cfgLb := lb % 32, hostQueue := _ }) hp
      ((Nat.zero_add _).trans_lt hlen) rfl),
    run_next (step_writeStrmLen (s := { s with cfgOb := ob % 32, cfgLb := lb % 32, strm := _, hostQueue := _ }) hp
      hlen rfl)]
  exact run_next hstart

/-- Settles O50: `run_configure_load_start`, and what a run of writes leaves to read. -/
theorem configureLoadStartBeginsTheCall : Obligations.ConfigureLoadStartBeginsTheCall := by
  intro s ob lb syms rest hp hlen hq
  have hread : ∀ k, Memory.read (configured ob lb syms rest s).strm k =
      if k < syms.length then syms[k]?.map (· % 256) else Memory.read s.strm k := fun k => by
    rw [configured, Memory.read_writeRun, List.length_map, Nat.zero_add, Nat.sub_zero, List.getElem?_map]
    simp only [Nat.zero_le, true_and]
  exact ⟨_, run_configure_load_start hp hlen hq, rfl, rfl, rfl, rfl, rfl, rfl, rfl, rfl, rfl, rfl,
    fun k hk => (hread k).trans (if_pos hk), fun a ha => (hread a).trans (if_neg (Nat.not_lt.2 ha))⟩

end Sys2Proof.Machine
end
